-- ==== Sys2Proof/Word.lean ====
section
/-! DEFINITION. The word types of LEDENC: bytes, 32-bit command and response words, 16-bit map
offsets, and the fixed-point intensity. -/

namespace Sys2Proof

/-- One byte: an element of WB, TB and EXT (20_memory.md R30). -/
abbrev Byte := BitVec 8

/-- One word of the host port, 32 bits (30_encoding.md R58). -/
abbrev Word := BitVec 32

/-- One element of the buffer map, an unsigned 16-bit offset (10_state.md R16). -/
abbrev Offset := BitVec 16

/-- The stored intensity, an integer in [0, 256] (10_state.md R12, R19). It is no bit vector of 9
bits because `scale` is not defined above 256 (40_scaler.md R71, 93_implementation_defined.md U11):
the type ends where the register does. -/
abbrev Intensity := Fin 257

end Sys2Proof
end

