-- ==== Sys2Proof/Config.lean ====
section
/-! DEFINITION. What is fixed for one machine and not by the spec (00_scope.md section 4), and the
one free value of the model. -/

namespace Sys2Proof

/-- What the transport answers to one `TransportSend` (00_scope.md R6). -/
inductive TransportOutcome where
  | ok
  | fail
deriving DecidableEq, Repr, Inhabited

/-- The open parameter ROUND_TIES of the host's `quantise` (00_scope.md R7). -/
inductive RoundTies where
  | halfToEven
  | halfAwayFromZero
deriving DecidableEq, Repr

/-- N of the block that `State.reset` describes. DESIGN CHOICE (notes/assumptions/1.md), unsafe: the
spec leaves N to the constructor (R3, R11). `construct` takes every N. -/
def Config.ledCount : Nat := 4

/-- Q0 when no intensity is given at reset (10_state.md R25, 92_eei_decisions.md D8). -/
def Config.defaultIntensity : Intensity := ⟨256, by decide⟩

/-- The answer of the transport to the send that follows `sent` earlier ones, where the list of
answers in State has run out: a free value, "a draw, under no law" (00_scope.md R6).
DESIGN CHOICE (notes/assumptions/3.md), safe: nothing can prove which answer it is. -/
opaque Config.transportOutcome (sent : Nat) : TransportOutcome

end Sys2Proof
end

