-- ==== Sys2Proof/Syntax.lean ====
section
/-! DEFINITION. The instructions: one constructor for each row of spec/opcode_table.json, eight host
commands (30_encoding.md R63) and the four transmit bytes of the wire format (R51, R52). -/

namespace Sys2Proof

/-- A colour as the caller gives it, red first (20_memory.md R33, 30_encoding.md R62). -/
structure Triple where
  r : Byte
  g : Byte
  b : Byte
deriving DecidableEq, Repr

/-- The rows of the opcode table, in the table's order. -/
inductive Instr where
  /-- SETQ: store the fixed-point intensity (R60, R73). -/
  | setq (imm16 : BitVec 16)
  /-- GETQ: read the fixed-point intensity (R59, R74). -/
  | getq
  /-- FILL: write triples from LED `start` on and zero the rest (R61, R94). -/
  | fill (start : BitVec 24) (data : List Triple)
  /-- SETMAP: load the buffer map (R61, R100); channel offsets first, as the words carry them. -/
  | setmap (rOffset gOffset bOffset : Offset) (offsets : List Offset)
  /-- COPYX: fill the work buffer from EXT through the map (R59, R103). -/
  | copyx
  /-- PREP: encode without sending (R59, R83). -/
  | prep
  /-- SENDB: encode and transmit (R59, R112). -/
  | sendb
  /-- SHOW: fill, encode and transmit (R61, R113). -/
  | showData (data : List Triple)
  /-- TXB0: byte 0 of a group on the wire, payload bits value[7] and value[6] (R51, R52). -/
  | txb0 (a b : Bool)
  /-- TXB1: byte 1 of a group on the wire, payload bits value[5] and value[4] (R51, R52). -/
  | txb1 (a b : Bool)
  /-- TXB2: byte 2 of a group on the wire, payload bits value[3] and value[2] (R51, R52). -/
  | txb2 (a b : Bool)
  /-- TXB3: byte 3 of a group on the wire, payload bits value[1] and value[0] (R51, R52). -/
  | txb3 (a b : Bool)
deriving DecidableEq, Repr

end Sys2Proof
end

