-- ==== Sys2Proof/WellFormed.lean ====
section
/-! DEFINITION. Which instructions have an encoding: the count word `n` of format V has 32 bits
(30_encoding.md R61), so a list operand has fewer than 2^32 elements. Every other operand bound of the
spec (16-bit immediates and offsets, the 24-bit `start`, 8-bit channels) is in the operand's type. -/

namespace Sys2Proof

/-- A list operand whose length fits the 32-bit count `n` (R61). -/
def countFits {α : Type} (xs : List α) : Bool :=
  decide (xs.length < 2 ^ 32)

/-- The instruction has an encoding (30_encoding.md R59 to R62). -/
def Instr.wellFormed : Instr → Bool
  | .setq _ => true
  | .getq => true
  | .fill _ data => countFits data
  | .setmap _ _ _ offsets => countFits offsets
  | .copyx => true
  | .prep => true
  | .sendb => true
  | .showData data => countFits data
  | .txb0 _ _ => true
  | .txb1 _ _ => true
  | .txb2 _ _ => true
  | .txb3 _ _ => true

end Sys2Proof
end

