-- ==== Sys2Proof/Decode.lean ====
section
/-! DEFINITION. The decoder of host command words (30_encoding.md Part B) and of transmit bytes
(Part A), total, each refusal with a name; the encoder after it; and the reading of a word numbered as
spec/opcode_table.json numbers it. -/

namespace Sys2Proof

/-- Why a word list is no legal command (R65), or a byte no transmit byte (R56). The block itself
reports every one of the first four alike, as ILLEGAL_COMMAND (R65, notes/assumptions/24.md). -/
inductive DecodeError where
  /-- The word list is empty. -/
  | emptyCommand
  /-- `op` is 0x00 or in 0x09 to 0xFF. -/
  | reservedOpcode
  /-- A field that must be zero is not. -/
  | reservedFieldSet
  /-- The list's length is not the L that `op` and `n` demand. -/
  | wrongLength
  /-- The byte is none of 0x11, 0x13, 0x31, 0x33 (R53, R56). -/
  | notACodeWord
deriving DecidableEq, Repr

/-! ### Fields -/

/-- The opcode of a header word, bits 31:24 (R58). -/
def opField (w : Word) : BitVec 8 := w.extractLsb' 24 8

/-- The field `a` of a header word, bits 23:0 (R58). -/
def aField (w : Word) : BitVec 24 := w.extractLsb' 0 24

/-- Bits 23:16, which format I demands to be zero (R60). -/
def midByte (w : Word) : BitVec 8 := w.extractLsb' 16 8

/-- Bits 31:16, which an offset word demands to be zero (R62). -/
def highHalf (w : Word) : BitVec 16 := w.extractLsb' 16 16

/-- Bits 15:0: `imm16` (R60) and `off16` (R62). -/
def lowHalf (w : Word) : BitVec 16 := w.extractLsb' 0 16

/-! ### The decoder of commands -/

/-- A triple word {0x00, R, G, B} (R62). -/
def decodeTriple (w : Word) : Except DecodeError Triple :=
  if opField w = 0 then .ok ⟨w.extractLsb' 16 8, w.extractLsb' 8 8, w.extractLsb' 0 8⟩
  else .error .reservedFieldSet

/-- An offset word {0x0000, off16} (R62). -/
def decodeOffset (w : Word) : Except DecodeError Offset :=
  if highHalf w = 0 then .ok (lowHalf w) else .error .reservedFieldSet

/-- Every payload word by one reader, in list order; the first refusal wins. -/
def decodeAll {α : Type} (read : Word → Except DecodeError α) :
    List Word → Except DecodeError (List α)
  | [] => .ok []
  | w :: ws =>
    match read w with
    | .error e => .error e
    | .ok x =>
      match decodeAll read ws with
      | .error e => .error e
      | .ok xs => .ok (x :: xs)

/-- A payload of exactly `n` words (R61, R65). -/
def decodeCounted {α : Type} (read : Word → Except DecodeError α) (n : Word)
    (payload : List Word) : Except DecodeError (List α) :=
  if payload.length = n.toNat then decodeAll read payload else .error .wrongLength

/-- Format Z: one word, `a` zero (R59). -/
def decodeZ (i : Instr) (w0 : Word) (rest : List Word) : Except DecodeError Instr :=
  if rest ≠ [] then .error .wrongLength
  else if aField w0 = 0 then .ok i
  else .error .reservedFieldSet

/-- Format I, the command SETQ: one word, bits 23:16 zero (R60). -/
def decodeSetq (w0 : Word) (rest : List Word) : Except DecodeError Instr :=
  if rest ≠ [] then .error .wrongLength
  else if midByte w0 = 0 then .ok (.setq (lowHalf w0))
  else .error .reservedFieldSet

/-- Format V, the command FILL: `a` is the first LED's index (R61). -/
def decodeFill (w0 : Word) : List Word → Except DecodeError Instr
  | [] => .error .wrongLength
  | n :: payload => (decodeCounted decodeTriple n payload).map (.fill (aField w0))

/-- Format V, the command SHOW: `a` must be zero (R61). -/
def decodeShow (w0 : Word) : List Word → Except DecodeError Instr
  | [] => .error .wrongLength
  | n :: payload =>
    if aField w0 = 0 then (decodeCounted decodeTriple n payload).map .showData
    else .error .reservedFieldSet

/-- Format V, the command SETMAP: three channel offsets before the `n` base offsets (R61). -/
def decodeSetmap (w0 : Word) : List Word → Except DecodeError Instr
  | n :: r :: g :: b :: payload =>
    if aField w0 = 0 then
      match decodeOffset r, decodeOffset g, decodeOffset b with
      | .ok ro, .ok go, .ok bo => (decodeCounted decodeOffset n payload).map (.setmap ro go bo)
      | _, _, _ => .error .reservedFieldSet
    else .error .reservedFieldSet
  | _ => .error .wrongLength

/-- The command decoder: total on word lists (R58, R63, R65). -/
def decodeCommand : List Word → Except DecodeError Instr
  | [] => .error .emptyCommand
  | w0 :: rest =>
    match (opField w0).toNat with
    | 1 => decodeSetq w0 rest
    | 2 => decodeZ .getq w0 rest
    | 3 => decodeFill w0 rest
    | 4 => decodeSetmap w0 rest
    | 5 => decodeZ .copyx w0 rest
    | 6 => decodeZ .prep w0 rest
    | 7 => decodeZ .sendb w0 rest
    | 8 => decodeShow w0 rest
    | _ => .error .reservedOpcode

/-! ### The decoder of transmit bytes -/

/-- The transmit byte 00a100b1 with payload bits `a` and `b`: 0x11 + 0x20*a + 0x02*b (R51). -/
def txByte (a b : Bool) : Byte :=
  0x11#8 ||| (if a then 0x20#8 else 0#8) ||| (if b then 0x02#8 else 0#8)

/-- A byte of the form 00a100b1: `b & 0xDD = 0x11` (R56). -/
def isCodeWord (b : Byte) : Bool := b &&& 0xDD#8 == 0x11#8

/-- The transmit byte at position `pos` of its group. The four rows share one pattern, so it is the
position that tells TXB0 to TXB3 apart (R52, notes/assumptions/9.md). -/
def decodeWireByte (pos : Fin 4) (b : Byte) : Except DecodeError Instr :=
  if isCodeWord b then
    .ok (match pos with
      | 0 => .txb0 (b.getLsbD 5) (b.getLsbD 1)
      | 1 => .txb1 (b.getLsbD 5) (b.getLsbD 1)
      | 2 => .txb2 (b.getLsbD 5) (b.getLsbD 1)
      | 3 => .txb3 (b.getLsbD 5) (b.getLsbD 1))
  else .error .notACodeWord

/-! ### Both encodings in one type -/

/-- The encoded form of an instruction: the word list of a command (R58), or a byte at a position of
a group on the wire (R51, R52). -/
inductive Encoded where
  | words (ws : List Word)
  | wire (pos : Fin 4) (b : Byte)
deriving DecidableEq, Repr

/-- The decoder over both encodings. -/
def decode : Encoded → Except DecodeError Instr
  | .words ws => decodeCommand ws
  | .wire pos b => decodeWireByte pos b

/-! ### The encoder -/

/-- A header word {op, a} (R58). -/
def headerWord (op : BitVec 8) (a : BitVec 24) : Word := op ++ a

/-- A header word of format I, {op, 0x00, imm16} (R60). -/
def immediateWord (op : BitVec 8) (imm16 : BitVec 16) : Word := op ++ 0#8 ++ imm16

/-- A triple word {0x00, R, G, B} (R62). -/
def tripleWord (t : Triple) : Word := 0#8 ++ t.r ++ t.g ++ t.b

/-- An offset word {0x0000, off16} (R62). -/
def offsetWord (o : Offset) : Word := 0#16 ++ o

/-- The count word `n` of format V (R61). -/
def countWord {α : Type} (xs : List α) : Word := BitVec.ofNat 32 xs.length

/-- The encoding of an instruction (R51, R52, R59 to R63). -/
def encode : Instr → Encoded
  | .setq imm16 => .words [immediateWord 0x01 imm16]
  | .getq => .words [headerWord 0x02 0]
  | .fill start data => .words (headerWord 0x03 start :: countWord data :: data.map tripleWord)
  | .setmap r g b offsets =>
    .words (headerWord 0x04 0 :: countWord offsets ::
      offsetWord r :: offsetWord g :: offsetWord b :: offsets.map offsetWord)
  | .copyx => .words [headerWord 0x05 0]
  | .prep => .words [headerWord 0x06 0]
  | .sendb => .words [headerWord 0x07 0]
  | .showData data => .words (headerWord 0x08 0 :: countWord data :: data.map tripleWord)
  | .txb0 a b => .wire 0 (txByte a b)
  | .txb1 a b => .wire 1 (txByte a b)
  | .txb2 a b => .wire 2 (txByte a b)
  | .txb3 a b => .wire 3 (txByte a b)

/-! ### Words as the opcode table numbers them -/

/-- The shortest word list a legal command with this opcode can be: format V needs its count word,
and SETMAP its three channel offsets (R59 to R61). -/
def leastLength (op : BitVec 8) : Nat :=
  match op.toNat with
  | 3 => 2
  | 4 => 5
  | 8 => 2
  | _ => 1

/-- Word number `k` of an instruction whose bits are `w`, the first word in the low 32 bits. -/
def tableWord (w k : Nat) : Word := BitVec.ofNat 32 (w >>> (32 * k))

/-- The word list of an instruction that the table gives `nbits` bits of value `w`: the words the bits
fill, and words of zeros up to the opcode's least length (notes/assumptions/11.md). -/
def tableWords (nbits w : Nat) : List Word :=
  let bits := w % 2 ^ nbits
  let count := max ((nbits + 31) / 32) (leastLength (opField (tableWord bits 0)))
  (List.range count).map (tableWord bits)

/-- What the decoder reads from an instruction numbered as the table numbers it. A row of 8 bits is a
transmit byte, taken as the first of its group; every other row is a command. -/
def decodeTableWord (nbits w : Nat) : Option Instr :=
  if nbits = 8 then (decodeWireByte 0 (BitVec.ofNat 8 w)).toOption
  else (decodeCommand (tableWords nbits w)).toOption

end Sys2Proof
end

