-- ==== Sys2Proof/Machine/State.lean ====
section
/-! DEFINITION. The state of one LEDENC block (10_state.md R10), the records of its outputs, the inputs
a step reads, and the state after reset (10_state.md R25 to R29). -/

namespace Sys2Proof.Machine

/-- One entry of TXLOG: a frame handed to the transport and what the transport answered
(10_state.md R17). -/
structure Sent where
  frame : List Byte
  outcome : TransportOutcome
deriving DecidableEq, Repr

/-- The four transmit bytes of one group, `out[0..3]` of 41_encoder.md R80, `o[0..3]` of R55. -/
structure Group where
  out0 : Byte
  out1 : Byte
  out2 : Byte
  out3 : Byte
deriving DecidableEq, Repr

/-- The decoder of the wire format (30_encoding.md R51 to R56). It is no part of the block: the model
holds it so that the transmit bytes TXB0 to TXB3 of the opcode table have a meaning
(notes/assumptions/8.md). -/
structure WireDecoder where
  /-- Which byte of a group comes next (20_memory.md R34). -/
  pos : Fin 4
  /-- The bytes of the group, the latest written at each position. -/
  out : Group
  /-- The channel values of the groups completed so far, oldest first (R55). -/
  values : List Byte
deriving DecidableEq, Repr

/-- What the outside hands to a step: a whole command with the external buffer the caller offers it
(70_reset_and_hazards.md R159, 00_scope.md R5), or a byte for the wire decoder. -/
inductive HostInput where
  | command (words : List Word) (ext : List Byte)
  | wireByte (b : Byte)
deriving DecidableEq, Repr

/-- The state. `n` to `bm` is the block (10_state.md R10), `txlog` and `rsplog` record its outputs,
`ext`, `draws` and `inbox` are inputs, `wire` is the wire decoder. -/
structure State where
  /-- N, the number of LEDs (R11). -/
  n : Nat
  /-- Q, the stored intensity (R12). -/
  q : Intensity
  /-- WB, raw channel bytes in green, red, blue order, 3N of them (R13). -/
  wb : List Byte
  /-- TB, the transmit buffer, 12N bytes (R14). -/
  tb : List Byte
  /-- BM, the buffer map, 3 + N elements; `none` is an element no SETMAP has written (R15, R28). -/
  bm : List (Option Offset)
  /-- TXLOG, every frame handed to the transport, oldest first (R17). -/
  txlog : List Sent
  /-- The response words sent to the host, oldest first (30_encoding.md R58, R64). -/
  rsplog : List Word
  /-- EXT, the caller's external buffer as the latest command offered it (00_scope.md R5). -/
  ext : List Byte
  /-- The transport's answers still to come (00_scope.md R6, 92_eei_decisions.md D16). -/
  draws : List TransportOutcome
  /-- What the host has issued and the block has not begun, oldest first (20_memory.md R43). -/
  inbox : List HostInput
  /-- The wire decoder. -/
  wire : WireDecoder
deriving DecidableEq, Repr

/-- Why a step has no successor. -/
inductive Fault where
  /-- Raised by COPYX where an index falls outside EXT or a map entry has never been written
  (60_exceptions.md R125). Safe: the spec forbids giving the case a value. -/
  | externalBounds
deriving DecidableEq, Repr

/-- Why a step has no meaning. -/
inductive Refusal where
  /-- Raised by `exec` for an instruction that has no meaning yet. Safe. -/
  | notModelled (mnemonic : String)
  /-- Raised by `step` for a byte given to the wire decoder that is none of 0x11, 0x13, 0x31, 0x33,
  as `decode_strict` refuses it (30_encoding.md R56). Safe. -/
  | notACodeWord
  /-- Raised by `step` for a command given to a block whose N is outside 1 to 2^24 - 1: no such block is
  driven through the command port (00_scope.md R9, notes/assumptions/15.md). Safe. -/
  | beyondPort
deriving DecidableEq, Repr

/-- The wire decoder before any byte (notes/assumptions/8.md). -/
def WireDecoder.initial : WireDecoder := ⟨0, ⟨0, 0, 0, 0⟩, []⟩

/-- The frame of an all-off chain: 12N bytes 0x11 (41_encoder.md R86). -/
def allOffFrame (n : Nat) : List Byte := List.replicate (12 * n) 0x11#8

/-- The state after a reset that succeeded, for any N and Q0 (10_state.md R25 to R29). The sequence
that leads to it is `construct` (70_reset_and_hazards.md R141). -/
def State.afterReset (n : Nat) (q0 : Intensity) : State where
  n := n
  q := q0
  wb := List.replicate (3 * n) 0#8
  tb := allOffFrame n
  bm := List.replicate (3 + n) none
  txlog := [⟨allOffFrame n, .ok⟩]
  rsplog := []
  ext := []
  draws := []
  inbox := []
  wire := .initial

/-- The machine right after reset: the default intensity (R25) on a chain of `Config.ledCount` LEDs
(notes/assumptions/1.md). -/
def State.reset : State := .afterReset Config.ledCount Config.defaultIntensity

end Sys2Proof.Machine
end

