-- ==== Sys2Proof/Machine/Flags.lean ====
section
/-! DEFINITION. The block has no flags (10_state.md R22): a command's outcome is in its response word
and is not kept. This file holds the response word (30_encoding.md R64) and the errors a command can
report (60_exceptions.md R120). -/

namespace Sys2Proof.Machine

/-- The errors reported with a response (60_exceptions.md R120). -/
inductive CommandError where
  | transportError
  | illegalCommand
deriving DecidableEq, Repr

/-- The status OK (R64). -/
def statusOk : BitVec 4 := 0x0

/-- The status that reports an error (R64). -/
def CommandError.status : CommandError → BitVec 4
  | .transportError => 0x1
  | .illegalCommand => 0x2

/-- The response word {status, 0x0, value} (R64). -/
def responseWord (status : BitVec 4) (value : BitVec 24) : Word := status ++ 0#4 ++ value

/-- The status of a response word, bits 31:28 (R64). -/
def responseStatus (r : Word) : BitVec 4 := r.extractLsb' 28 4

/-- Bits 27:24 of a response word, always zero (R64). -/
def responseGap (r : Word) : BitVec 4 := r.extractLsb' 24 4

/-- The value of a response word, bits 23:0 (R64). -/
def responseValue (r : Word) : BitVec 24 := r.extractLsb' 0 24

end Sys2Proof.Machine
end

