-- ==== Sys2Proof/Machine/Operands.lean ====
section
/-! DEFINITION. The operand computations: the intensity scaler (40_scaler.md), the expander and its
inverse (41_encoder.md R80, 30_encoding.md R55, R56), the order of a colour's channels, and the indices
of 20_memory.md and 43_buffer_map.md. -/

namespace Sys2Proof.Machine

/-! ### The scaler -/

/-- `scale(v, q) = (v * q) >> 8` (R70): the exact product, shifted. The result fits a byte because
`q <= 256` (R71). -/
def scale (v : Byte) (q : Intensity) : Byte := BitVec.ofNat 8 ((v.toNat * q.val) >>> 8)

/-! ### The expander -/

/-- `out[0]` (R80). -/
def expand0 (value : Nat) : Nat := ((value >>> 5) &&& 0x02) ||| ((value >>> 2) &&& 0x20) ||| 0x11

/-- `out[1]` (R80). -/
def expand1 (value : Nat) : Nat := ((value >>> 3) &&& 0x02) ||| (value &&& 0x20) ||| 0x11

/-- `out[2]` (R80). -/
def expand2 (value : Nat) : Nat := ((value >>> 1) &&& 0x02) ||| ((value <<< 2) &&& 0x20) ||| 0x11

/-- `out[3]` (R80). -/
def expand3 (value : Nat) : Nat := ((value <<< 1) &&& 0x02) ||| ((value <<< 4) &&& 0x20) ||| 0x11

/-- `expand(value)`, the four transmit bytes of one scaled channel value (R80). The formulas are
evaluated on unbounded integers (R81) and each result is below 256. -/
def expand (value : Byte) : List Byte :=
  [BitVec.ofNat 8 (expand0 value.toNat), BitVec.ofNat 8 (expand1 value.toNat),
   BitVec.ofNat 8 (expand2 value.toNat), BitVec.ofNat 8 (expand3 value.toNat)]

/-! ### Decoding a group -/

/-- The byte whose bits 7 to 0 are given. -/
def byteOfBits (b7 b6 b5 b4 b3 b2 b1 b0 : Bool) : Byte :=
  BitVec.ofBool b7 ++ BitVec.ofBool b6 ++ BitVec.ofBool b5 ++ BitVec.ofBool b4 ++
  BitVec.ofBool b3 ++ BitVec.ofBool b2 ++ BitVec.ofBool b1 ++ BitVec.ofBool b0

/-- `decode(o)`, total on all bytes: bits 5 and 1 of each of the four (30_encoding.md R55). -/
def decodeGroup (o : Group) : Byte :=
  byteOfBits (o.out0.getLsbD 5) (o.out0.getLsbD 1) (o.out1.getLsbD 5) (o.out1.getLsbD 1)
    (o.out2.getLsbD 5) (o.out2.getLsbD 1) (o.out3.getLsbD 5) (o.out3.getLsbD 1)

/-- `decode_strict(o)`: defined only on four code words (R56). -/
def decodeStrict (o : Group) : Option Byte :=
  if isCodeWord o.out0 && isCodeWord o.out1 && isCodeWord o.out2 && isCodeWord o.out3 then
    some (decodeGroup o)
  else none

/-- A frame read in groups of four, first group first (R55, R57); bytes past the last whole group are
dropped. -/
def decodeFrame : List Byte → List Byte
  | o0 :: o1 :: o2 :: o3 :: rest => decodeGroup ⟨o0, o1, o2, o3⟩ :: decodeFrame rest
  | _ => []

/-- The group with its byte at position `j` replaced. -/
def putByte (o : Group) (j : Fin 4) (b : Byte) : Group :=
  match j with
  | 0 => { o with out0 := b }
  | 1 => { o with out1 := b }
  | 2 => { o with out2 := b }
  | 3 => { o with out3 := b }

/-! ### Channel order and indices -/

/-- A colour in transport channel order: green, red, blue (20_memory.md R31, R33). -/
def grbBytes (t : Triple) : List Byte := [t.g, t.r, t.b]

/-- The index of LED `i`'s first byte in WB (R31). -/
def ledIndex (i : Nat) : Nat := 3 * i

/-- The index of LED `i`'s base offset in BM (10_state.md R15). -/
def baseIndex (i : Nat) : Nat := 3 + i

/-- The index into EXT: the exact sum of a base and a channel offset, without wrap-around
(43_buffer_map.md R105). -/
def extIndex (base offset : Offset) : Nat := base.toNat + offset.toNat

end Sys2Proof.Machine
end

