-- ==== Sys2Proof/Machine/Ops.lean ====
section
/-! DEFINITION. The shared operations over the state: reads and writes of the four spaces, responses,
raising an error, the encode pass, the fill, the copy through the map, transmission. -/

namespace Sys2Proof.Machine

/-! ### The four spaces (20_memory.md R30)

Each space is the list of its elements in index order; its canonical form is its fixed size
(10_state.md R18, notes/assumptions/14.md). -/

/-- Element `k` of WB, `none` outside the space. -/
def State.readWb (s : State) (k : Nat) : Option Byte := s.wb[k]?

/-- Element `j` of TB, `none` outside the space. -/
def State.readTb (s : State) (j : Nat) : Option Byte := s.tb[j]?

/-- Element `m` of BM; `none` outside the space and where no SETMAP has written (R28). -/
def State.readBm (s : State) (m : Nat) : Option Offset := (s.bm[m]?).getD none

/-- Element `a` of EXT, `none` where `a >= EXT_SIZE` (43_buffer_map.md R106). -/
def State.readExt (s : State) (a : Nat) : Option Byte := s.ext[a]?

/-- The sizes of the block's spaces: the canonical form of its memory (10_state.md R18). -/
def Memory.wf (s : State) : Bool :=
  s.wb.length == 3 * s.n && s.tb.length == 12 * s.n && s.bm.length == 3 + s.n

/-- `xs` with the elements from index `at` on replaced by `ys`, one after the other; what would fall
outside `xs` is dropped, so the length stays. -/
def storeAt {α : Type} (xs : List α) (start : Nat) : List α → List α
  | [] => xs
  | y :: ys => storeAt (xs.set start y) (start + 1) ys

/-- Q gets a value. -/
def State.setQ (s : State) (q : Intensity) : State := { s with q := q }

/-- WB gets its contents. -/
def State.setWb (s : State) (wb : List Byte) : State := { s with wb := wb }

/-- TB gets its contents. -/
def State.setTb (s : State) (tb : List Byte) : State := { s with tb := tb }

/-- BM gets its contents. -/
def State.setBm (s : State) (bm : List (Option Offset)) : State := { s with bm := bm }

/-- The wire decoder gets its contents. -/
def State.setWire (s : State) (w : WireDecoder) : State := { s with wire := w }

/-! ### Ending a command -/

/-- The response of a command that finished: one word (30_encoding.md R58, R64). -/
def respond (status : BitVec 4) (value : BitVec 24) (s : State) : State :=
  { s with rsplog := s.rsplog ++ [responseWord status value] }

/-- Raising an error (60_exceptions.md R128): the command stops where it is, the response carries the
error's status, and the block is ready for the next command. Nothing is saved, no mode changes, nothing
is undone. There is no return from it (R130). -/
def raise (e : CommandError) (s : State) : State := respond e.status 0 s

/-- `hint()` (44_orchestration.md R111): "this step is simply omitted"; it reads and writes nothing. -/
def hint (s : State) : State := s

/-- The end of a command whose last step was a transmission with this answer: the hint and OK, or
TransportError raised with the hint skipped (R114, R122, R129). -/
def conclude (outcome : TransportOutcome) (s : State) : State :=
  match outcome with
  | .ok => respond statusOk 0 (hint s)
  | .fail => raise .transportError s

/-! ### The encode pass -/

/-- The transmit bytes of a work buffer at one intensity: every byte scaled, then expanded, in index
order (41_encoder.md R82). -/
def encodeBytes (wb : List Byte) (q : Intensity) : List Byte :=
  wb.flatMap fun v => expand (scale v q)

/-- `encode()` (R82): all of TB from WB and Q, and nothing else (R84). -/
def encodePass (s : State) : State := s.setTb (encodeBytes s.wb s.q)

/-! ### Transmission -/

/-- The transport's answer to the next send: the next listed one, and past the list's end a free
value (00_scope.md R6, notes/assumptions/3.md). -/
def nextOutcome (s : State) : TransportOutcome :=
  s.draws.head?.getD (Config.transportOutcome s.txlog.length)

/-- `transmit()` (44_orchestration.md R110): the whole of TB is handed over once and TXLOG records it.
What it answered is `nextOutcome` of the state before. -/
def transmit (s : State) : State :=
  { s with
    txlog := s.txlog ++ [⟨s.tb, nextOutcome s⟩]
    draws := s.draws.tail }

/-- Encode and transmit, and the response: the common end of SENDB and SHOW (R112, R113). -/
def encodeAndTransmit (s : State) : State :=
  conclude (nextOutcome (encodePass s)) (transmit (encodePass s))

/-! ### The fill (42_workbuffer_fill.md) -/

/-- How many triples the write step writes: w = min(len(data), max(0, N - start)) (R91). -/
def fillCount (n start : Nat) (data : List Triple) : Nat := min data.length (n - start)

/-- The returned index, `start + w` (R92). -/
def fillEnd (n start : Nat) (data : List Triple) : Nat := start + fillCount n start data

/-- The write step: the first `w` triples, green, red, blue, from LED `start` on (R90, R91). -/
def fillWrite (n start : Nat) (data : List Triple) (wb : List Byte) : List Byte :=
  storeAt wb (ledIndex start) ((data.take (fillCount n start data)).flatMap grbBytes)

/-- The zero step: everything from LED `ret` to the end (R93). -/
def zeroTail (ret : Nat) (wb : List Byte) : List Byte :=
  wb.take (ledIndex ret) ++ List.replicate (wb.length - ledIndex ret) 0

/-- The work buffer after FILL `start`, `data` (R94): the write step, then the zero step. -/
def fillBuffer (n start : Nat) (data : List Triple) (wb : List Byte) : List Byte :=
  zeroTail (fillEnd n start data) (fillWrite n start data wb)

/-! ### The buffer map (43_buffer_map.md) -/

/-- The map after SETMAP: three channel offsets, then at most N base offsets (R100, R101). -/
def mapBuffer (n : Nat) (r g b : Offset) (offsets : List Offset) (bm : List (Option Offset)) :
    List (Option Offset) :=
  storeAt bm 0 ((r :: g :: b :: offsets.take n).map some)

/-- One channel of LED `i`: the byte of EXT at base plus channel offset; `none` where the map entry has
no value or the index is outside EXT (R103, R106, R107). -/
def readChannel (s : State) (i channel : Nat) : Option Byte :=
  match s.readBm (baseIndex i), s.readBm channel with
  | some base, some offset => s.readExt (extIndex base offset)
  | _, _ => none

/-- The three bytes of LED `i` in the order WB holds them: green, red, blue (R103). -/
def readLed (s : State) (i : Nat) : Option (List Byte) :=
  match readChannel s i 0, readChannel s i 1, readChannel s i 2 with
  | some r, some g, some b => some (grbBytes ⟨r, g, b⟩)
  | _, _, _ => none

/-- The bytes of `count` LEDs from LED `i` on (R103); `none` as soon as one cannot be read. -/
def readLeds (s : State) (i : Nat) : Nat → Option (List Byte)
  | 0 => some []
  | count + 1 =>
    match readLed s i, readLeds s (i + 1) count with
    | some led, some rest => some (led ++ rest)
    | _, _ => none

/-! ### The wire format -/

/-- One transmit byte with payload bits `a` and `b` at position `j` of its group (30_encoding.md R51,
R52): it becomes `out[j]`, and the byte at position 3 completes the group, whose value is then the
decoded channel (R55). Nothing of the block changes (notes/assumptions/8.md). -/
def takeTxByte (j : Fin 4) (a b : Bool) (s : State) : State :=
  let out := putByte s.wire.out j (txByte a b)
  s.setWire
    { pos := j + 1
      out := out
      values := if j = 3 then s.wire.values ++ [decodeGroup out] else s.wire.values }

end Sys2Proof.Machine
end

