-- ==== Sys2Proof/Machine/BufferMap.lean ====
section
/-! DEFINITION. The map path into the work buffer: SETMAP and COPYX (43_buffer_map.md). -/

namespace Sys2Proof.Machine

/-- SETMAP: the channel offsets and up to N base offsets; response value 0 (R100, R101). -/
def execSetmap (rOffset gOffset bOffset : Offset) (offsets : List Offset) (s : State) :
    Host.Outcome State Fault Refusal :=
  .next (respond statusOk 0 (s.setBm (mapBuffer s.n rOffset gOffset bOffset offsets s.bm)))

/-- COPYX: all of WB from EXT through the map; response value 0 (R103, R104). Outside its precondition
(R106, R107) it is the model's fault ExternalBounds, decided before any byte is written
(60_exceptions.md R125, R127). -/
def execCopyx (s : State) : Host.Outcome State Fault Refusal :=
  match readLeds s 0 s.n with
  | some wb => .next (respond statusOk 0 (s.setWb wb))
  | none => .fault .externalBounds

end Sys2Proof.Machine
end

