-- ==== Sys2Proof/Machine/Encoder.lean ====
section
/-! DEFINITION. The command that runs the encode pass on its own: PREP (41_encoder.md). -/

namespace Sys2Proof.Machine

/-- PREP: `encode()`, nothing sent; response value 0 (R83). -/
def execPrep (s : State) : Host.Outcome State Fault Refusal :=
  .next (respond statusOk 0 (encodePass s))

end Sys2Proof.Machine
end

