-- ==== Sys2Proof/Machine/Fill.lean ====
section
/-! DEFINITION. The tuple path into the work buffer: FILL (42_workbuffer_fill.md). -/

namespace Sys2Proof.Machine

/-- FILL `start`, `data`: the write step, the zero step, response value the returned index (R94). The
index fits the 24 bits of the response because N does, which `step` checks at the port (00_scope.md R9,
notes/assumptions/15.md). -/
def execFill (start : BitVec 24) (data : List Triple) (s : State) :
    Host.Outcome State Fault Refusal :=
  .next (respond statusOk (BitVec.ofNat 24 (fillEnd s.n start.toNat data))
    (s.setWb (fillBuffer s.n start.toNat data s.wb)))

end Sys2Proof.Machine
end

