-- ==== Sys2Proof/Machine/Intensity.lean ====
section
/-! DEFINITION. The commands on the intensity register: SETQ and GETQ (40_scaler.md). -/

namespace Sys2Proof.Machine

/-- Q saturates at 256: `min(q, 256)` (R73). -/
def saturate (q : BitVec 16) : Intensity :=
  ⟨min q.toNat 256, Nat.lt_succ_of_le (Nat.min_le_right _ _)⟩

/-- SETQ `q`: `Q <- min(q, 256)`; response value 0 (R73). -/
def execSetq (imm16 : BitVec 16) (s : State) : Host.Outcome State Fault Refusal :=
  .next (respond statusOk 0 (s.setQ (saturate imm16)))

/-- GETQ: response value `zext_24(Q)`; no state written (R74). -/
def execGetq (s : State) : Host.Outcome State Fault Refusal :=
  .next (respond statusOk (BitVec.ofNat 24 s.q.val) s)

end Sys2Proof.Machine
end

