-- ==== Sys2Proof/Machine/Orchestration.lean ====
section
/-! DEFINITION. The commands that transmit: SENDB and SHOW (44_orchestration.md). -/

namespace Sys2Proof.Machine

/-- SENDB: `encode()` then `transmit()`; response value 0, status TRANSPORT_ERROR when the send failed
(R112). It always encodes first. -/
def execSendb (s : State) : Host.Outcome State Fault Refusal :=
  .next (encodeAndTransmit s)

/-- SHOW `data`: FILL 0 (its index dropped), `encode()`, `transmit()`, `hint()`; response as SENDB's
(R113). A send that failed undoes nothing (R114). -/
def execShow (data : List Triple) (s : State) : Host.Outcome State Fault Refusal :=
  .next (encodeAndTransmit (s.setWb (fillBuffer s.n 0 data s.wb)))

end Sys2Proof.Machine
end

