-- ==== Sys2Proof/Machine/WireFormat.lean ====
section
/-! DEFINITION. The transmit bytes of the wire format: TXB0 to TXB3 (30_encoding.md Part A). They are no
commands of the block; each is read by the wire decoder (notes/assumptions/8.md). -/

namespace Sys2Proof.Machine

/-- TXB0: byte 0 of a group, `a = value[7]`, `b = value[6]` (R52). -/
def execTxb0 (a b : Bool) (s : State) : Host.Outcome State Fault Refusal :=
  .next (takeTxByte 0 a b s)

/-- TXB1: byte 1 of a group, `a = value[5]`, `b = value[4]` (R52). -/
def execTxb1 (a b : Bool) (s : State) : Host.Outcome State Fault Refusal :=
  .next (takeTxByte 1 a b s)

/-- TXB2: byte 2 of a group, `a = value[3]`, `b = value[2]` (R52). -/
def execTxb2 (a b : Bool) (s : State) : Host.Outcome State Fault Refusal :=
  .next (takeTxByte 2 a b s)

/-- TXB3: byte 3 of a group, `a = value[1]`, `b = value[0]` (R52); it completes the group. -/
def execTxb3 (a b : Bool) (s : State) : Host.Outcome State Fault Refusal :=
  .next (takeTxByte 3 a b s)

end Sys2Proof.Machine
end

