-- ==== Sys2Proof/Machine/Dispatch.lean ====
section
/-! DEFINITION. One arm for each row of spec/opcode_table.json, in the table's order. -/

namespace Sys2Proof.Machine

/-- The meaning of an instruction. -/
def exec (i : Instr) (s : State) : Host.Outcome State Fault Refusal :=
  match i with
  | .setq imm16 => Sys2Proof.Machine.execSetq imm16 s
  | .getq => Sys2Proof.Machine.execGetq s
  | .fill start data => Sys2Proof.Machine.execFill start data s
  | .setmap rOffset gOffset bOffset offsets => Sys2Proof.Machine.execSetmap rOffset gOffset bOffset offsets s
  | .copyx => Sys2Proof.Machine.execCopyx s
  | .prep => Sys2Proof.Machine.execPrep s
  | .sendb => Sys2Proof.Machine.execSendb s
  | .showData data => Sys2Proof.Machine.execShow data s
  | .txb0 a b => Sys2Proof.Machine.execTxb0 a b s
  | .txb1 a b => Sys2Proof.Machine.execTxb1 a b s
  | .txb2 a b => Sys2Proof.Machine.execTxb2 a b s
  | .txb3 a b => Sys2Proof.Machine.execTxb3 a b s

end Sys2Proof.Machine
end

