-- ==== Sys2Proof/Machine/Fetch.lean ====
section
/-! DEFINITION. Taking the next input of the inbox: what is taken from it, and what a step does where
the words are no legal command (30_encoding.md R65, 70_reset_and_hazards.md R159). -/

namespace Sys2Proof.Machine

/-- The chains that the command port drives: `1 <= N <= 2^24 - 1`, so that every LED index fits the field
`a` and the response's value (00_scope.md R9, 92_eei_decisions.md D20). -/
def portDrives (n : Nat) : Bool := decide (1 ≤ n) && decide (n ≤ 2 ^ 24 - 1)

/-- A command begins: it leaves the inbox and offers the caller's external buffer, which is then fixed
for the length of the command (00_scope.md R5, 92_eei_decisions.md D11). -/
def beginCommand (ext : List Byte) (rest : List HostInput) (s : State) : State :=
  { s with inbox := rest, ext := ext }

/-- A byte for the wire decoder leaves the inbox. -/
def beginWireByte (rest : List HostInput) (s : State) : State := { s with inbox := rest }

/-- The words are not a legal command: response ILLEGAL_COMMAND and nothing else (R65, R123, R129). -/
def rejectCommand (s : State) : State := raise .illegalCommand s

/-- The input that holds an instruction numbered as the opcode table numbers it: 8 bits are a byte for
the wire decoder, everything else is a command, offered the external buffer the state already has. -/
def tableInput (s : State) (nbits w : Nat) : HostInput :=
  if nbits = 8 then .wireByte (BitVec.ofNat 8 w) else .command (tableWords nbits w) s.ext

end Sys2Proof.Machine
end

