-- ==== Sys2Proof/Machine/Step.lean ====
section
/-! DEFINITION. One step: one whole command from the host, or one byte for the wire decoder
(70_reset_and_hazards.md R159); with nothing issued the block is idle (60_exceptions.md R135). -/

namespace Sys2Proof.Machine

/-- One step. A command comes through the port, which drives no chain of more than 2^24 - 1 LEDs
(00_scope.md R9); its decoder runs first, before any effect (60_exceptions.md R127). With an empty
inbox the state stays as it is (R135, notes/assumptions/7.md). -/
def step (s : State) : Host.Outcome State Fault Refusal :=
  match s.inbox with
  | [] => .next s
  | .command words ext :: rest =>
    if portDrives s.n then
      match decodeCommand words with
      | .ok i => exec i (beginCommand ext rest s)
      | .error _ => .next (rejectCommand (beginCommand ext rest s))
    else .refused .beyondPort
  | .wireByte b :: rest =>
    match decodeWireByte s.wire.pos b with
    | .ok i => exec i (beginWireByte rest s)
    | .error _ => .refused .notACodeWord

/-- The state in which the very next step runs the instruction of `nbits` bits of value `w`: it is put
before everything the host has issued (notes/assumptions/11.md). -/
def State.withFetchWord (s : State) (nbits w : Nat) : State :=
  { s with inbox := tableInput s nbits w :: s.inbox }

end Sys2Proof.Machine
end

