-- ==== Sys2Proof/Machine/Construct.lean ====
section
/-! DEFINITION. Reset as the spec gives it: construction, its sequence and its errors
(70_reset_and_hazards.md R140 to R143). It is no command; `State.reset` is what it leaves. -/

namespace Sys2Proof.Machine

/-- Why there is no block (60_exceptions.md R120, R131). -/
inductive ConstructError where
  /-- N is zero or negative (R121). -/
  | constructionError
  /-- The all-off transmission failed (R143). -/
  | transportError
deriving DecidableEq, Repr

/-- What a construction did to the outside and what it gave: how often the transport was configured
(44_orchestration.md R118), which frames it was handed, and the block or the error. -/
structure Construction where
  configureCalls : Nat
  sent : List Sent
  result : Except ConstructError State

/-- The block after steps 3 to 5 of R141: buffers allocated and zero-filled, the map without values
(10_state.md R28), Q loaded, nothing sent. The first answer of the transport is `draw`. -/
def allocated (n : Nat) (q0 : Intensity) (draw : TransportOutcome) : State where
  n := n
  q := q0
  wb := List.replicate (3 * n) 0#8
  tb := List.replicate (12 * n) 0#8
  bm := List.replicate (3 + n) none
  txlog := []
  rsplog := []
  ext := []
  draws := [draw]
  inbox := []
  wire := .initial

/-- The reset sequence (R141): the check of N, `configure`, the buffers, Q, the ordinary encode pass and
the ordinary transmission. A failed transmission leaves no block (R143). Every N of 1 or more is
constructed; the bound of 00_scope.md R9 is the command port's, not construction's. -/
def construct (ledCount : Int) (q0 : Intensity) (draw : TransportOutcome) : Construction :=
  if ledCount ≤ 0 then ⟨0, [], .error .constructionError⟩
  else
    let block := encodePass (allocated ledCount.toNat q0 draw)
    let after := transmit block
    ⟨1, after.txlog,
      match nextOutcome block with
      | .ok => .ok after
      | .fail => .error .transportError⟩

end Sys2Proof.Machine
end

