-- ==== Sys2Proof/Machine/HostSide.lean ====
section
/-! DEFINITION. The host's side of the block: the floating-point intensity of the document's public
surface (40_scaler.md R75 to R77), the pseudo-operations (30_encoding.md R68) and the defaults of the
written syntax (R67, 43_buffer_map.md R102). No rule of the block depends on it. -/

namespace Sys2Proof.Machine

/-- A floating-point number as far as `quantise` can tell: every finite one is a rational, and -0.0 is
0 (notes/assumptions/19.md). -/
inductive HostFloat where
  | finite (f : Rat)
  | posInf
  | negInf
  | nan
deriving DecidableEq, Repr

/-- `round` under one of the two treatments of ties (00_scope.md R7). For the `x >= 0` of R75, away
from zero is up. -/
def roundRat (ties : RoundTies) (x : Rat) : Int :=
  let low := x.floor
  let rest := x - low
  if rest < 1 / 2 then low
  else if 1 / 2 < rest then low + 1
  else match ties with
    | .halfAwayFromZero => low + 1
    | .halfToEven => if low % 2 = 0 then low else low + 1

/-- `clamp(f, 0, 1)` with both clamps of R75, for finite `f`. -/
def clampUnit (f : Rat) : Rat := max 0 (min 1 f)

/-- `quantise(f)` (R75): an integer in [0, 256], nothing for NaN (93_implementation_defined.md U4). -/
def quantise (ties : RoundTies) : HostFloat → Option Nat
  | .finite f => some (roundRat ties (clampUnit f * 256)).toNat
  | .posInf => some 256
  | .negInf => some 0
  | .nan => none

/-- `get_intensity()`: the host divides what GETQ returned by 256 (R76). -/
def getIntensity (q : Nat) : HostFloat := .finite (q / 256)

/-- `set_intensity(f)` is `SETQ quantise(f)`; no command is issued for NaN (R68, R77). -/
def setIntensity (ties : RoundTies) (f : HostFloat) : Option Instr :=
  (quantise ties f).map fun q => .setq (BitVec.ofNat 16 q)

/-- `show(data)` is SHOW (R68). -/
def showPseudo (data : List Triple) : Instr := .showData data

/-- `set_buffer_map(offsets, r_offset=0, g_offset=1, b_offset=2)` with the document's defaults
(R67, R102). -/
def setBufferMap (offsets : List Offset) (rOffset : Offset := 0) (gOffset : Offset := 1)
    (bOffset : Offset := 2) : Instr :=
  .setmap rOffset gOffset bOffset offsets

/-- `new(bus, N, f = 1.0)`: reset with `Q0 = quantise(f)` (R68, R140). The bus selects the transport and
means nothing else to the block. A NaN is refused. -/
def newBlock (ties : RoundTies) (ledCount : Int) (draw : TransportOutcome)
    (f : HostFloat := .finite 1) : Option Construction :=
  (quantise ties f).bind fun q =>
    if h : q < 257 then some (construct ledCount ⟨q, h⟩ draw) else none

/-- The host's input that issues an instruction with an external buffer: its words for a command, its
byte for a transmit byte (30_encoding.md R58, R67). -/
def issue (i : Instr) (ext : List Byte) : HostInput :=
  match encode i with
  | .words ws => .command ws ext
  | .wire _ b => .wireByte b

end Sys2Proof.Machine
end

