-- ==== Sys2Proof/Safety.lean ====
section
/-! DEFINITION. What claims are stated in: what a step leaves alone, the precondition of COPYX, the
loop of the encode pass as the spec writes it, legal responses, the invariant of the block, and runs
(70_reset_and_hazards.md R159). -/

namespace Sys2Proof.Machine

/-! ### Frames -/

/-- The parts of a state, one for each field. -/
inductive Part where
  | n | q | wb | tb | bm | txlog | rsplog | ext | draws | inbox | wire
deriving DecidableEq, Repr

/-- The part is the same in both states; the spaces of 20_memory.md R30 element by element, through the
model's read of one element. -/
def Part.Same (s t : State) : Part → Prop
  | .n => t.n = s.n
  | .q => t.q = s.q
  | .wb => ∀ k, t.readWb k = s.readWb k
  | .tb => ∀ j, t.readTb j = s.readTb j
  | .bm => t.bm.length = s.bm.length ∧ ∀ m, t.readBm m = s.readBm m
  | .txlog => t.txlog = s.txlog
  | .rsplog => t.rsplog = s.rsplog
  | .ext => ∀ a, t.readExt a = s.readExt a
  | .draws => t.draws = s.draws
  | .inbox => t.inbox = s.inbox
  | .wire => t.wire = s.wire

/-- Every part but those listed is the same in both states. -/
def KeepsAllBut (changed : List Part) (s t : State) : Prop :=
  ∀ p, p ∉ changed → p.Same s t

/-- `t` has answered one response more than `s`, with this status and value (30_encoding.md R64). -/
def Responds (status : BitVec 4) (value : Nat) (s t : State) : Prop :=
  ∃ r, t.rsplog = s.rsplog ++ [r] ∧ responseStatus r = status ∧ responseGap r = 0 ∧
    (responseValue r).toNat = value

/-- The status a command that transmitted answers with (30_encoding.md R64). -/
def outcomeStatus : TransportOutcome → BitVec 4
  | .ok => 0x0
  | .fail => 0x1

/-! ### COPYX -/

/-- The precondition of COPYX: every map entry it reads has a value and every index is inside EXT
(43_buffer_map.md R106, R107). -/
def CopyxContract (s : State) : Prop :=
  ∀ i c, i < s.n → c < 3 →
    ∃ base offset, s.readBm (3 + i) = some base ∧ s.readBm c = some offset ∧
      base.toNat + offset.toNat < s.ext.length

/-! ### The encode pass as a loop -/

/-- One iteration of the pass (41_encoder.md R82): channel `k` of WB is scaled, expanded, and written to
the four bytes of group `k`. -/
def encodeGroup (wb : List Byte) (q : Intensity) (tb : List Byte) (k : Nat) : List Byte :=
  match wb[k]? with
  | none => tb
  | some v =>
    match expand (scale v q) with
    | [out0, out1, out2, out3] =>
      (((tb.set (4 * k + 0) out0).set (4 * k + 1) out1).set (4 * k + 2) out2).set (4 * k + 3) out3
    | _ => tb

/-- The iterations of the pass in a given order of the channels (R82, R88). -/
def encodeLoop (wb : List Byte) (q : Intensity) (order : List Nat) (tb : List Byte) : List Byte :=
  order.foldl (encodeGroup wb q) tb

/-! ### Illegal commands -/

/-- The conditions of 30_encoding.md R65 under which a word list is an illegal command, each as it
stands there. -/
inductive IllegalWords : List Word → Prop where
  | empty : IllegalWords []
  | opcode (w0 : Word) (rest : List Word)
      (h : (opField w0).toNat = 0 ∨ 9 ≤ (opField w0).toNat) : IllegalWords (w0 :: rest)
  | formatZ (w0 : Word) (rest : List Word)
      (op : (opField w0).toNat ∈ [2, 5, 6, 7])
      (h : rest ≠ [] ∨ aField w0 ≠ 0) : IllegalWords (w0 :: rest)
  | formatI (w0 : Word) (rest : List Word)
      (op : (opField w0).toNat = 1)
      (h : rest ≠ [] ∨ midByte w0 ≠ 0) : IllegalWords (w0 :: rest)
  | noCount (w0 : Word)
      (op : (opField w0).toNat ∈ [3, 4, 8]) : IllegalWords [w0]
  | showField (w0 : Word) (rest : List Word)
      (op : (opField w0).toNat = 8)
      (h : aField w0 ≠ 0) : IllegalWords (w0 :: rest)
  | triples (w0 n : Word) (payload : List Word)
      (op : (opField w0).toNat ∈ [3, 8])
      (h : payload.length ≠ n.toNat ∨ ∃ w ∈ payload, opField w ≠ 0) :
      IllegalWords (w0 :: n :: payload)
  | setmapField (w0 : Word) (rest : List Word)
      (op : (opField w0).toNat = 4)
      (h : aField w0 ≠ 0) : IllegalWords (w0 :: rest)
  | offsets (w0 n : Word) (payload : List Word)
      (op : (opField w0).toNat = 4)
      (h : payload.length ≠ 3 + n.toNat ∨ ∃ w ∈ payload, highHalf w ≠ 0) :
      IllegalWords (w0 :: n :: payload)

/-! ### The invariant -/

/-- A response word the block can produce (30_encoding.md R64): bits 27:24 zero, status OK,
TRANSPORT_ERROR or ILLEGAL_COMMAND, and value zero where the status is not OK. -/
def LegalResponse (r : Word) : Prop :=
  responseGap r = 0 ∧
    (responseStatus r = 0x0 ∨
      ((responseStatus r = 0x1 ∨ responseStatus r = 0x2) ∧ responseValue r = 0))

/-- A frame of this chain: 12N bytes, each one of the four code words (30_encoding.md R53, R57). -/
def LegalFrame (n : Nat) (frame : List Byte) : Prop :=
  frame.length = 12 * n ∧ ∀ b ∈ frame, isCodeWord b = true

/-- What holds of the block after reset and after every step. -/
structure State.Inv (s : State) : Prop where
  /-- There is at least one LED (00_scope.md R3, 60_exceptions.md R121), and no more than the command port
  can drive (00_scope.md R9). -/
  ledCount : 1 ≤ s.n ∧ s.n ≤ 2 ^ 24 - 1
  /-- The spaces have their sizes (10_state.md R18). -/
  memory : Memory.wf s = true
  /-- TB holds code words only (41_encoder.md R86). -/
  transmitBuffer : ∀ b ∈ s.tb, isCodeWord b = true
  /-- Every frame handed to the transport is a frame of this chain (R57, R110). -/
  frames : ∀ e ∈ s.txlog, LegalFrame s.n e.frame
  /-- The first of them is the all-off frame of reset (10_state.md R29). -/
  firstFrame : s.txlog.head? = some ⟨allOffFrame s.n, .ok⟩
  /-- Every response is one the block can produce (30_encoding.md R64). -/
  responses : ∀ r ∈ s.rsplog, LegalResponse r
  /-- The map is written from its start on: channel offsets together, bases in order
  (43_buffer_map.md R100, R107). -/
  mapChannels : s.readBm 0 ≠ none → s.readBm 2 ≠ none
  mapOrder : ∀ m, s.readBm (m + 1) ≠ none → s.readBm m ≠ none

/-! ### Runs -/

/-- The host's script and the transport's answers laid before the block (70_reset_and_hazards.md
R159). -/
def State.withScript (s : State) (inputs : List HostInput) (draws : List TransportOutcome) : State :=
  { s with inbox := inputs, draws := draws }

/-- The states of final runs through the command port: a reset that succeeded, with an N the port can
drive (00_scope.md R9), a script, and steps that each gave a next state (R159). -/
inductive Reachable : State → Prop where
  | reset (ledCount : Int) (q0 : Intensity) (s : State) (inputs : List HostInput)
      (draws : List TransportOutcome) (port : ledCount ≤ 2 ^ 24 - 1)
      (h : (construct ledCount q0 .ok).result = .ok s) :
      Reachable (s.withScript inputs draws)
  | step (s t : State) (reached : Reachable s) (h : Machine.step s = .next t) : Reachable t

end Sys2Proof.Machine
end

