-- ==== Sys2Proof/Certificates/Slice0/Obligations.lean ====
section
/-! DEFINITION. The statements for the provers. Each docstring names the rule or section of spec/ it
formalises; a statement that rests on a choice of the model says so. -/

open Sys2Proof Sys2Proof.Machine

/-! ### Scaler and expander -/

/-- 40_scaler.md R70. -/
def Obligations.ScaleIsTruncatedProduct : Prop :=
  ∀ (v : Byte) (q : Intensity),
    (scale v q).toNat = (v.toNat * q.val) >>> 8 ∧
    (scale v q).toNat ≤ 255 ∧
    256 * (scale v q).toNat ≤ v.toNat * q.val ∧
    v.toNat * q.val < 256 * ((scale v q).toNat + 1)

/-- 40_scaler.md R72, the laws of `scale`, which that rule derives from R70. -/
def Obligations.ScaleLaws : Prop :=
  (∀ v : Byte, scale v ⟨256, by decide⟩ = v) ∧
  (∀ v : Byte, scale v ⟨0, by decide⟩ = 0) ∧
  (∀ q : Intensity, scale 0 q = 0) ∧
  (∀ (v : Byte) (q : Intensity), (scale v q).toNat ≤ v.toNat) ∧
  (∀ (v : Byte) (q1 q2 : Intensity), q1 < q2 → (scale v q1).toNat ≤ (scale v q2).toNat) ∧
  (∀ (v1 v2 : Byte) (q : Intensity),
    v1.toNat ≤ v2.toNat → (scale v1 q).toNat ≤ (scale v2 q).toNat) ∧
  (∀ q : Intensity, q.val < 256 → scale 1 q = 0) ∧
  (∀ (v : Byte) (q : Intensity), q.val < 256 → (scale v q).toNat < 255)

/-- 41_encoder.md R80: the four formulas, evaluated on integers (R81). -/
def Obligations.ExpandIsTheFourFormulas : Prop :=
  ∀ v : Byte, (expand v).map BitVec.toNat =
    [((v.toNat >>> 5) &&& 0x02) ||| ((v.toNat >>> 2) &&& 0x20) ||| 0x11,
     ((v.toNat >>> 3) &&& 0x02) ||| (v.toNat &&& 0x20) ||| 0x11,
     ((v.toNat >>> 1) &&& 0x02) ||| ((v.toNat <<< 2) &&& 0x20) ||| 0x11,
     ((v.toNat <<< 1) &&& 0x02) ||| ((v.toNat <<< 4) &&& 0x20) ||| 0x11]

/-- 20_memory.md R34: which bits of the scaled value each byte of a group carries. -/
def Obligations.GroupCarriesHighBitsFirst : Prop :=
  ∀ v : Byte, ∃ o0 o1 o2 o3 : Byte, expand v = [o0, o1, o2, o3] ∧
    o0.getLsbD 5 = v.getLsbD 7 ∧ o0.getLsbD 1 = v.getLsbD 6 ∧
    o1.getLsbD 5 = v.getLsbD 5 ∧ o1.getLsbD 1 = v.getLsbD 4 ∧
    o2.getLsbD 5 = v.getLsbD 3 ∧ o2.getLsbD 1 = v.getLsbD 2 ∧
    o3.getLsbD 5 = v.getLsbD 1 ∧ o3.getLsbD 1 = v.getLsbD 0

/-- 30_encoding.md R55, R56: both decoders invert the expander, and the strict one refuses every group
with a byte that is no code word, while the total one reads bits 5 and 1 of any bytes. -/
def Obligations.DecodersInvertExpand : Prop :=
  (∀ v o0 o1 o2 o3 : Byte, expand v = [o0, o1, o2, o3] →
    decodeGroup ⟨o0, o1, o2, o3⟩ = v ∧ decodeStrict ⟨o0, o1, o2, o3⟩ = some v) ∧
  (∀ o : Group,
    decodeStrict o = none ↔
      ¬ (o.out0 &&& 0xDD = 0x11 ∧ o.out1 &&& 0xDD = 0x11 ∧
        o.out2 &&& 0xDD = 0x11 ∧ o.out3 &&& 0xDD = 0x11))

/-! ### The encode pass -/

/-- 41_encoder.md R82: the pass is the loop of its pseudocode, and reads and writes nothing else. -/
def Obligations.EncodePassIsTheLoop : Prop :=
  ∀ s : State, Memory.wf s = true →
    (encodePass s).tb = encodeLoop s.wb s.q (List.range (3 * s.n)) s.tb ∧
    KeepsAllBut [.tb] s (encodePass s) ∧
    (∀ t : State, t.wb = s.wb → t.q = s.q → (encodePass t).tb = (encodePass s).tb)

/-- 41_encoder.md R88 (92_eei_decisions.md D25): any order of the iterations gives the same TB. -/
def Obligations.EncodePassInAnyOrder : Prop :=
  ∀ (s : State) (order : List Nat), Memory.wf s = true → order.Perm (List.range (3 * s.n)) →
    encodeLoop s.wb s.q order s.tb = (encodePass s).tb

/-- 41_encoder.md R83: PREP, its encoding, effect, frame and corner cases. -/
def Obligations.PrepEncodesWithoutSending : Prop :=
  encode .prep = .words [0x06000000] ∧
  decodeCommand [0x06000000] = .ok .prep ∧
  ∀ s : State, Memory.wf s = true →
    ∃ t, exec .prep s = .next t ∧
      (∀ k j, k < 3 * s.n → j < 4 → ∃ v, s.readWb k = some v ∧
        t.readTb (4 * k + j) = (expand (scale v s.q))[j]?) ∧
      t.tb.length = 12 * s.n ∧
      Responds 0 0 s t ∧
      KeepsAllBut [.tb, .rsplog] s t ∧
      (s.q.val = 0 → t.tb = allOffFrame s.n) ∧
      (s.q.val = 256 → ∀ k j v, j < 4 → s.readWb k = some v →
        t.readTb (4 * k + j) = (expand v)[j]?) ∧
      (∀ k j, j < 4 → s.readWb k = some 0 → t.readTb (4 * k + j) = some 0x11) ∧
      (∃ u, exec .prep t = .next u ∧ u.tb = t.tb)

/-- 41_encoder.md R87: decoding what a pass wrote gives the scaled channels, and at full intensity the
work buffer itself. -/
def Obligations.FrameDecodesToScaledChannels : Prop :=
  ∀ s t : State, exec .prep s = .next t →
    decodeFrame t.tb = s.wb.map (scale · s.q) ∧
    (s.q.val = 256 → decodeFrame t.tb = s.wb)

/-! ### The intensity register -/

/-- 40_scaler.md R73; that an operand above 256 saturates is the spec's decision D6. -/
def Obligations.SetqStoresSaturated : Prop :=
  ∀ (imm16 : BitVec 16) (s : State),
    ∃ t, exec (.setq imm16) s = .next t ∧
      t.q.val = min imm16.toNat 256 ∧
      Responds 0 0 s t ∧
      KeepsAllBut [.q, .rsplog] s t

/-- 40_scaler.md R74: GETQ, its encoding, response, frame and corner cases; the length of the chain of
State.reset, which plays no part, is the model's choice (notes/assumptions/1.md). -/
def Obligations.GetqReturnsIntensity : Prop :=
  encode .getq = .words [0x02000000] ∧
  decodeCommand [0x02000000] = .ok .getq ∧
  (∀ s : State, ∃ t, exec .getq s = .next t ∧ Responds 0 s.q.val s t ∧
    KeepsAllBut [.rsplog] s t) ∧
  (∃ t, exec .getq State.reset = .next t ∧ Responds 0 256 State.reset t) ∧
  (∀ (q : BitVec 16) (s : State), ∃ t u, exec (.setq q) s = .next t ∧ exec .getq t = .next u ∧
    Responds 0 (min q.toNat 256) t u)

/-! ### The fill -/

/-- 42_workbuffer_fill.md R90, R91, R93: the write step and the zero step, byte by byte. -/
def Obligations.FillStepsWriteWholeTriplesThenZero : Prop :=
  (∀ (n start : Nat) (data : List Triple) (wb : List Byte), wb.length = 3 * n →
    fillCount n start data = min data.length (max 0 (n - start)) ∧
    (fillWrite n start data wb).length = 3 * n ∧
    (∀ (t : Nat) (x : Triple), data[t]? = some x → start + t < n →
      (fillWrite n start data wb)[3 * (start + t) + 0]? = some x.g ∧
      (fillWrite n start data wb)[3 * (start + t) + 1]? = some x.r ∧
      (fillWrite n start data wb)[3 * (start + t) + 2]? = some x.b) ∧
    (∀ k, k < 3 * start ∨ 3 * (start + fillCount n start data) ≤ k →
      (fillWrite n start data wb)[k]? = wb[k]?)) ∧
  (∀ (n ret : Nat) (wb : List Byte), wb.length = 3 * n →
    (∀ k, 3 * ret ≤ k → k < 3 * n → (zeroTail ret wb)[k]? = some 0) ∧
    (∀ k, k < 3 * ret → (zeroTail ret wb)[k]? = wb[k]?) ∧
    (zeroTail ret wb).length = 3 * n)

/-- 42_workbuffer_fill.md R94; that both steps are one command, and the returned index where nothing is
written, are the spec's decision D13. The index is the response's value where N fits the 24 bits of
00_scope.md R9. -/
def Obligations.FillWritesAndZeroes : Prop :=
  ∀ (start : BitVec 24) (data : List Triple) (s : State), Memory.wf s = true →
    ∃ t, exec (.fill start data) s = .next t ∧
      (∀ (k : Nat) (x : Triple), data[k]? = some x → start.toNat + k < s.n →
        t.readWb (3 * (start.toNat + k) + 0) = some x.g ∧
        t.readWb (3 * (start.toNat + k) + 1) = some x.r ∧
        t.readWb (3 * (start.toNat + k) + 2) = some x.b) ∧
      (∀ k, 3 * (start.toNat + min data.length (s.n - start.toNat)) ≤ k → k < 3 * s.n →
        t.readWb k = some 0) ∧
      (∀ k, k < 3 * start.toNat ∨ 3 * s.n ≤ k → t.readWb k = s.readWb k) ∧
      (s.n < 2 ^ 24 →
        Responds 0 (start.toNat + min data.length (s.n - start.toNat)) s t) ∧
      KeepsAllBut [.wb, .rsplog] s t

/-- 42_workbuffer_fill.md R95: the LEDs before `start` keep what they held. -/
def Obligations.FillLeavesLedsBeforeStart : Prop :=
  ∀ (start : BitVec 24) (data : List Triple) (s t : State),
    exec (.fill start data) s = .next t →
    ∀ k, k < 3 * start.toNat → t.readWb k = s.readWb k

/-- 42_workbuffer_fill.md R96: after `FILL 0, data` nothing of the earlier WB survives. -/
def Obligations.FillFromZeroIsTheDataAndZeroes : Prop :=
  ∀ (data : List Triple) (s : State), Memory.wf s = true →
    ∃ t, exec (.fill 0 data) s = .next t ∧
      t.wb = (data.take s.n).flatMap (fun x => [x.g, x.r, x.b]) ++
        List.replicate (3 * (s.n - data.length)) 0

/-! ### The buffer map -/

/-- 43_buffer_map.md R100, R101: SETMAP, its encoding, what it writes and what it leaves. -/
def Obligations.SetmapLoadsTheMap : Prop :=
  ∀ (r g b : Offset) (offsets : List Offset) (s : State), Memory.wf s = true →
    encode (.setmap r g b offsets) =
      .words (0x04000000 :: BitVec.ofNat 32 offsets.length ::
        (r :: g :: b :: offsets).map (fun o => o.setWidth 32)) ∧
    ∃ t, exec (.setmap r g b offsets) s = .next t ∧
      t.readBm 0 = some r ∧ t.readBm 1 = some g ∧ t.readBm 2 = some b ∧
      (∀ i x, i < s.n → offsets[i]? = some x → t.readBm (3 + i) = some x) ∧
      (∀ m, 3 + min offsets.length s.n ≤ m → t.readBm m = s.readBm m) ∧
      t.bm.length = s.bm.length ∧
      Responds 0 0 s t ∧
      KeepsAllBut [.bm, .rsplog] s t

/-- 43_buffer_map.md R103, R104: COPYX where its precondition (R106, R107) holds. -/
def Obligations.CopyxFillsFromExternalBuffer : Prop :=
  encode .copyx = .words [0x05000000] ∧
  decodeCommand [0x05000000] = .ok .copyx ∧
  ∀ s : State, Memory.wf s = true → CopyxContract s →
    ∃ t, exec .copyx s = .next t ∧
      (∀ i base r g b, i < s.n → s.readBm (3 + i) = some base →
        s.readBm 0 = some r → s.readBm 1 = some g → s.readBm 2 = some b →
        t.readWb (3 * i + 0) = s.readExt (base.toNat + g.toNat) ∧
        t.readWb (3 * i + 1) = s.readExt (base.toNat + r.toNat) ∧
        t.readWb (3 * i + 2) = s.readExt (base.toNat + b.toNat)) ∧
      t.wb.length = 3 * s.n ∧
      Responds 0 0 s t ∧
      KeepsAllBut [.wb, .rsplog] s t

/-- 60_exceptions.md R125, the treatment the spec prescribes (92_eei_decisions.md D9, D11): COPYX stops
exactly where its precondition fails. -/
def Obligations.CopyxFaultsOutsideItsContract : Prop :=
  ∀ s : State, exec .copyx s = .fault .externalBounds ↔ ¬ CopyxContract s

/-- 43_buffer_map.md R103, R108: two external buffers that agree at the indices the map names give the
same work buffer. -/
def Obligations.CopyxReadsOnlyMappedBytes : Prop :=
  ∀ (s t : State) (ext : List Byte), exec .copyx s = .next t →
    (∀ i c base offset, i < s.n → c < 3 → s.readBm (3 + i) = some base →
      s.readBm c = some offset →
      ext[base.toNat + offset.toNat]? = s.readExt (base.toNat + offset.toNat)) →
    exec .copyx { s with ext := ext } = .next { t with ext := ext }

/-! ### Transmission -/

/-- 44_orchestration.md R110: the whole of TB is handed over once, TXLOG records frame and outcome, the
block keeps its state, and a failed send raises TransportError. -/
def Obligations.TransmitHandsOverTheFrame : Prop :=
  ∀ s : State, Memory.wf s = true →
    ∃ outcome,
      (transmit s).txlog = s.txlog ++ [⟨s.tb, outcome⟩] ∧
      s.tb.length = 4 * 3 * s.n ∧
      KeepsAllBut [.txlog, .draws] s (transmit s) ∧
      (outcome = .fail → conclude outcome (transmit s) = raise .transportError (transmit s))

/-- 00_scope.md R6 (92_eei_decisions.md D16): the transport's answers are taken in order, one for each
send, and a command that sends nothing takes none. The list of answers is the model's own field
(notes/assumptions/3.md). -/
def Obligations.DrawsAreTakenInOrder : Prop :=
  ∀ (s : State) (outcome : TransportOutcome) (rest : List TransportOutcome),
    s.draws = outcome :: rest →
    (∃ t, exec .sendb s = .next t ∧ t.draws = rest ∧
      t.txlog = s.txlog ++ [⟨t.tb, outcome⟩]) ∧
    (∃ t, exec .prep s = .next t ∧ t.draws = outcome :: rest)

/-- 44_orchestration.md R112; SENDB completes whatever the transport answers. The status codes are the
spec's decision D4; that the transport's answers are a list taken in order is the model's choice
(notes/assumptions/3.md, D16). -/
def Obligations.SendbEncodesAndTransmits : Prop :=
  ∀ s : State, Memory.wf s = true →
    ∃ t outcome, exec .sendb s = .next t ∧
      t.tb = (encodePass s).tb ∧
      t.txlog = s.txlog ++ [⟨(encodePass s).tb, outcome⟩] ∧
      Responds (outcomeStatus outcome) 0 s t ∧
      (∀ d rest, s.draws = d :: rest → outcome = d ∧ t.draws = rest) ∧
      KeepsAllBut [.tb, .txlog, .draws, .rsplog] s t

/-- 44_orchestration.md R113: SHOW, its encoding, the fill from LED 0, the frame, the response, and the
corner cases. The command words and the status codes are the spec's decisions D3, D4 and D24; that the
transport's answers are a list taken in order is the model's choice (notes/assumptions/3.md, D16). -/
def Obligations.ShowFillsEncodesTransmits : Prop :=
  ∀ (data : List Triple) (s : State), Memory.wf s = true →
    encode (.showData data) =
      .words (0x08000000 :: BitVec.ofNat 32 data.length :: data.map tripleWord) ∧
    ∃ t outcome, exec (.showData data) s = .next t ∧
      t.wb = (data.take s.n).flatMap (fun x => [x.g, x.r, x.b]) ++
        List.replicate (3 * (s.n - data.length)) 0 ∧
      t.tb = encodeBytes t.wb s.q ∧
      t.txlog = s.txlog ++ [⟨t.tb, outcome⟩] ∧
      Responds (outcomeStatus outcome) 0 s t ∧
      (∀ d rest, s.draws = d :: rest → outcome = d ∧ t.draws = rest) ∧
      KeepsAllBut [.wb, .tb, .txlog, .draws, .rsplog] s t ∧
      (data = [] → t.tb = allOffFrame s.n) ∧
      (s.q.val = 0 → t.tb = allOffFrame s.n) ∧
      (∃ u v, exec (.setq 256) t = .next u ∧ exec .sendb u = .next v ∧
        decodeFrame v.tb = t.wb)

/-- 44_orchestration.md R114, R122, 60_exceptions.md R129 (92_eei_decisions.md D16): a failing SENDB or
SHOW leaves the block as a succeeding one does; only the recorded outcome and the response differ. -/
def Obligations.FailedSendIsNotRolledBack : Prop :=
  ∀ (s : State) (rest : List TransportOutcome) (i : Instr),
    (i = .sendb ∨ ∃ data, i = .showData data) →
    ∃ good bad frame,
      exec i { s with draws := .ok :: rest } = .next good ∧
      exec i { s with draws := .fail :: rest } = .next bad ∧
      KeepsAllBut [.txlog, .rsplog] good bad ∧
      good.txlog = s.txlog ++ [⟨frame, .ok⟩] ∧ bad.txlog = s.txlog ++ [⟨frame, .fail⟩] ∧
      Responds 0 0 s good ∧ Responds 1 0 s bad

/-- 44_orchestration.md R116: the frame of SHOW is a function of the data, N and Q alone, and leaves
nothing of what went before in WB or TB. -/
def Obligations.ShowIsIndependentOfThePast : Prop :=
  ∀ (data : List Triple) (s s' t t' : State), Memory.wf s = true → Memory.wf s' = true →
    s.n = s'.n → s.q = s'.q →
    exec (.showData data) s = .next t → exec (.showData data) s' = .next t' →
    t.wb = t'.wb ∧ t.tb = t'.tb ∧
    (t.txlog.getLast?.map Sent.frame) = (t'.txlog.getLast?.map Sent.frame)

/-- 20_memory.md R45: writes of Q, WB and BM do not change TB or send anything; they are seen by the
next pass, and a write of BM by the next COPYX only. -/
def Obligations.ChangesShowOnlyAtTheNextPass : Prop :=
  (∀ (i : Instr) (s t : State), exec i s = .next t →
    (i ≠ .prep ∧ i ≠ .sendb ∧ ∀ data, i ≠ .showData data) → t.tb = s.tb ∧ t.txlog = s.txlog) ∧
  (∀ (i : Instr) (s t : State), exec i s = .next t →
    (i = .prep ∨ i = .sendb ∨ ∃ data, i = .showData data) → t.tb = encodeBytes t.wb t.q)

/-! ### The wire format -/

/-- 30_encoding.md R51, R52, R55. That the transmit bytes of the opcode table are read by a wire decoder
beside the block is the model's choice (notes/assumptions/8.md): each completes, puts 0x11 + 0x20*a +
0x02*b at its position, keeps the group's other three bytes, changes nothing of the block, and the fourth
completes the group, whose value has the payload bits at 7-2j and 6-2j. -/
def Obligations.TransmitBytesCarryTheirBits : Prop :=
  ∀ (a b : Bool) (s : State),
    ∃ t0 t1 t2 t3,
      exec (.txb0 a b) s = .next t0 ∧ exec (.txb1 a b) s = .next t1 ∧
      exec (.txb2 a b) s = .next t2 ∧ exec (.txb3 a b) s = .next t3 ∧
      t0.wire.out.out0.toNat = 0x11 + 0x20 * a.toNat + 0x02 * b.toNat ∧
      t1.wire.out.out1.toNat = 0x11 + 0x20 * a.toNat + 0x02 * b.toNat ∧
      t2.wire.out.out2.toNat = 0x11 + 0x20 * a.toNat + 0x02 * b.toNat ∧
      t3.wire.out.out3.toNat = 0x11 + 0x20 * a.toNat + 0x02 * b.toNat ∧
      t0.wire.out = { s.wire.out with out0 := t0.wire.out.out0 } ∧
      t1.wire.out = { s.wire.out with out1 := t1.wire.out.out1 } ∧
      t2.wire.out = { s.wire.out with out2 := t2.wire.out.out2 } ∧
      t3.wire.out = { s.wire.out with out3 := t3.wire.out.out3 } ∧
      (decodeGroup t0.wire.out).getLsbD 7 = a ∧ (decodeGroup t0.wire.out).getLsbD 6 = b ∧
      (decodeGroup t1.wire.out).getLsbD 5 = a ∧ (decodeGroup t1.wire.out).getLsbD 4 = b ∧
      (decodeGroup t2.wire.out).getLsbD 3 = a ∧ (decodeGroup t2.wire.out).getLsbD 2 = b ∧
      (decodeGroup t3.wire.out).getLsbD 1 = a ∧ (decodeGroup t3.wire.out).getLsbD 0 = b ∧
      t0.wire.pos = 1 ∧ t1.wire.pos = 2 ∧ t2.wire.pos = 3 ∧ t3.wire.pos = 0 ∧
      t0.wire.values = s.wire.values ∧ t1.wire.values = s.wire.values ∧
      t2.wire.values = s.wire.values ∧
      t3.wire.values = s.wire.values ++ [decodeGroup t3.wire.out] ∧
      KeepsAllBut [.wire] s t0 ∧ KeepsAllBut [.wire] s t1 ∧
      KeepsAllBut [.wire] s t2 ∧ KeepsAllBut [.wire] s t3

/-- 30_encoding.md R55, 41_encoder.md R87, through `step` byte by byte: the wire decoder of the model
(notes/assumptions/8.md) recovers the scaled channels from the bytes of an encode pass. -/
def Obligations.WireDecoderRecoversTheFrame : Prop :=
  ∀ (s : State) (wb : List Byte) (q : Intensity) (rest : List HostInput),
    s.wire.pos = 0 → s.inbox = (encodeBytes wb q).map HostInput.wireByte ++ rest →
    ∃ t : State, Sys2Proof.core.run (4 * wb.length) s = .next t ∧
      t.wire.values = s.wire.values ++ wb.map (scale · q) ∧
      t.wire.pos = 0 ∧ t.inbox = rest ∧ KeepsAllBut [.wire, .inbox] s t

/-! ### Encodings -/

/-- 30_encoding.md R51, R52, R59 to R63: decoding what the encoder writes gives the instruction back,
for every well-formed instruction. -/
def Obligations.DecodeInvertsEncode : Prop :=
  ∀ i : Instr, i.wellFormed = true → decode (encode i) = .ok i

/-- 30_encoding.md R65, R66: a word list or a positioned byte that decodes is the one encoding of a
well-formed instruction. -/
def Obligations.EveryLegalEncodingIsTheEncoders : Prop :=
  ∀ (e : Encoded) (i : Instr), decode e = .ok i → i.wellFormed = true ∧ encode i = e

/-- 30_encoding.md R65 (92_eei_decisions.md D5): the decoder refuses exactly the word lists that meet
one of the rule's conditions. -/
def Obligations.DecoderRefusesExactlyIllegalWords : Prop :=
  ∀ ws : List Word, (∃ e, decodeCommand ws = .error e) ↔ IllegalWords ws

/-- Words written out in 95_test_vectors.md, section 2.8 and Part 3. -/
def Obligations.VectorWordsDecode : Prop :=
  decodeCommand [0x0100012C] = .ok (.setq 300) ∧
  decodeCommand [0x03FFFFFF, 0x00000000] = .ok (.fill 16777215 []) ∧
  decodeCommand [0x03000001, 0x00000003, 0x00AA55FF, 0x00010101, 0x00020202] =
    .ok (.fill 1 [⟨0xAA, 0x55, 0xFF⟩, ⟨1, 1, 1⟩, ⟨2, 2, 2⟩]) ∧
  decodeCommand [0x04000000, 0x00000002, 0x00000001, 0x00000000, 0x00000002, 0x00000005,
    0x00000009] = .ok (.setmap 1 0 2 [5, 9]) ∧
  decodeCommand [0x07000000] = .ok .sendb ∧
  decodeCommand [0x08000000, 0x00000002, 0x000A141E, 0x0028323C] =
    .ok (.showData [⟨10, 20, 30⟩, ⟨40, 50, 60⟩]) ∧
  decodeWireByte 2 0x31 = .ok (.txb2 true false)

/-! ### Steps -/

/-- 70_reset_and_hazards.md R159, 60_exceptions.md R123, R127, R129, R135: what a step does for each
content of the inbox; a command runs on a chain the port can drive, 00_scope.md R9. That a command given to
any other chain is refused (notes/assumptions/15.md), that the inputs are a list of State, that an empty one leaves the block idle, and
that a byte which is no code word is refused are the model's choices (notes/assumptions/7.md, 10.md). -/
def Obligations.StepRunsTheDecodedInstruction : Prop :=
  ∀ s : State,
    (s.inbox = [] → step s = .next s) ∧
    (∀ words ext rest i, s.inbox = .command words ext :: rest → 1 ≤ s.n → s.n ≤ 2 ^ 24 - 1 →
      decodeCommand words = .ok i → step s = exec i { s with inbox := rest, ext := ext }) ∧
    (∀ words ext rest e, s.inbox = .command words ext :: rest → 1 ≤ s.n → s.n ≤ 2 ^ 24 - 1 →
      decodeCommand words = .error e → step s = .next { s with inbox := rest, ext := ext, rsplog := s.rsplog ++ [0x20000000] }) ∧
    (∀ words ext rest, s.inbox = .command words ext :: rest → s.n = 0 ∨ 2 ^ 24 ≤ s.n →
      step s = .refused .beyondPort) ∧
    (∀ b rest i, s.inbox = .wireByte b :: rest → decodeWireByte s.wire.pos b = .ok i →
      step s = exec i { s with inbox := rest }) ∧
    (∀ b rest e, s.inbox = .wireByte b :: rest → decodeWireByte s.wire.pos b = .error e →
      step s = .refused .notACodeWord)

/-- An instruction laid before the machine by `withFetchWord` is the next one run, in the state as it
was; a command where the port can drive the chain (00_scope.md R9), a transmit byte where the wire decoder stands at the start of a group (notes/assumptions/9.md,
11.md). -/
def Obligations.FetchedWordRunsNext : Prop :=
  ∀ (s : State) (w : Nat) (i : Instr),
    (1 ≤ s.n → s.n ≤ 2 ^ 24 - 1 → decodeTableWord 32 w = some i →
      step (s.withFetchWord 32 w) = exec i s) ∧
    (s.wire.pos = 0 → decodeTableWord 8 w = some i → step (s.withFetchWord 8 w) = exec i s)

/-- 30_encoding.md R58 and 20_memory.md R43: what the host issues for a well-formed command runs as that
command, on every chain the port can drive (00_scope.md R9). -/
def Obligations.IssuedCommandRuns : Prop :=
  ∀ (s : State) (i : Instr) (ext : List Byte) (rest : List HostInput) (words : List Word),
    1 ≤ s.n → s.n ≤ 2 ^ 24 - 1 →
    i.wellFormed = true → encode i = .words words → s.inbox = issue i ext :: rest →
    step s = exec i { s with inbox := rest, ext := ext }

/-- 30_encoding.md R58 (92_eei_decisions.md D2, D3): every command answers with exactly one response
word, illegal ones too, and hands over at most one frame. -/
def Obligations.OneResponsePerCommand : Prop :=
  ∀ (s t : State) (words : List Word) (ext : List Byte) (rest : List HostInput),
    s.inbox = .command words ext :: rest → step s = .next t →
    (∃ r, t.rsplog = s.rsplog ++ [r] ∧ LegalResponse r) ∧
    (t.txlog = s.txlog ∨ ∃ e, t.txlog = s.txlog ++ [e]) ∧
    t.inbox = rest ∧ t.ext = ext

/-! ### The whole machine -/

/-- 10_state.md R11: N is fixed. -/
def Obligations.LedCountIsFixed : Prop :=
  (∀ (n : Nat) (q0 : Intensity) (s : State), 1 ≤ n →
    (construct n q0 .ok).result = .ok s → s.n = n) ∧
  (∀ (i : Instr) (s t : State), exec i s = .next t → t.n = s.n) ∧
  (∀ s t : State, step s = .next t → t.n = s.n)

/-- 10_state.md R18: the sizes of the buffers after construction and after every step. -/
def Obligations.BuffersKeepTheirSizes : Prop :=
  (∀ (ledCount : Int) (q0 : Intensity) (draw : TransportOutcome) (s : State),
    (construct ledCount q0 draw).result = .ok s →
    s.wb.length = 3 * s.n ∧ s.tb.length = 4 * s.wb.length ∧ s.bm.length = 3 + s.n) ∧
  (∀ s t : State, s.wb.length = 3 * s.n → s.tb.length = 4 * s.wb.length → s.bm.length = 3 + s.n →
    step s = .next t →
    t.wb.length = s.wb.length ∧ t.tb.length = s.tb.length ∧ t.bm.length = s.bm.length ∧
    t.wb.length = 3 * t.n ∧ t.tb.length = 4 * t.wb.length ∧ t.bm.length = 3 + t.n)

/-- 10_state.md R10, its column 'written by', and 60_exceptions.md R136: each part of the block is
written by the commands named there and by no other. -/
def Obligations.EachPartHasItsWriters : Prop :=
  ∀ (i : Instr) (s t : State), exec i s = .next t →
    ((∀ imm, i ≠ .setq imm) → t.q = s.q) ∧
    ((∀ start data, i ≠ .fill start data) → i ≠ .copyx → (∀ data, i ≠ .showData data) →
      t.wb = s.wb) ∧
    ((∀ r g b offsets, i ≠ .setmap r g b offsets) → t.bm = s.bm) ∧
    (i ≠ .prep → i ≠ .sendb → (∀ data, i ≠ .showData data) → t.tb = s.tb) ∧
    (i ≠ .sendb → (∀ data, i ≠ .showData data) → t.txlog = s.txlog ∧ t.draws = s.draws)

/-- 60_exceptions.md R120: no command but COPYX can stop the model, and none is refused. -/
def Obligations.OnlyCopyxStops : Prop :=
  ∀ (i : Instr) (s : State),
    (∀ f, exec i s = .fault f → i = .copyx ∧ f = .externalBounds) ∧
    (∀ r, exec i s ≠ .refused r)

/-- 20_memory.md R30, 00_scope.md R5: no instruction writes EXT, COPYX included, and only COPYX reads
it. -/
def Obligations.OnlyCopyxReadsExternalBuffer : Prop :=
  ∀ (i : Instr) (s t : State), exec i s = .next t →
    t.ext = s.ext ∧
    (i ≠ .copyx → ∀ ext : List Byte, exec i { s with ext := ext } = .next { t with ext := ext })

/-- 10_state.md R17, 70_reset_and_hazards.md R160: what can be observed of a run only grows. -/
def Obligations.LogsOnlyGrow : Prop :=
  ∀ s t : State, step s = .next t →
    (∃ more, t.txlog = s.txlog ++ more) ∧ (∃ more, t.rsplog = s.rsplog ++ more)

/-- The invariant of the block holds after every step from every state in which it holds: N the port can
drive (00_scope.md R9), sizes (R18),
code words in TB and in every frame (R53, R57, R86), the all-off first frame (R29), legal responses
(R64), the map written from its start (R107). -/
def Obligations.StepKeepsTheInvariant : Prop :=
  ∀ s t : State, s.Inv → step s = .next t → t.Inv

/-- The invariant holds after reset; that State.reset is a chain of 4 LEDs is the model's choice
(notes/assumptions/1.md). -/
def Obligations.ResetMeetsTheInvariant : Prop :=
  State.reset.Inv

/-- 70_reset_and_hazards.md R159: every state of every run through the command port meets the invariant,
whatever N (up to the port's bound, 00_scope.md R9), Q0, script and answers of the transport. -/
def Obligations.ReachableStatesMeetTheInvariant : Prop :=
  ∀ s : State, Reachable s → s.Inv

/-! ### Reset -/

/-- 70_reset_and_hazards.md R140 to R142, 10_state.md R25 to R29: the state a successful construction
leaves, for every N and Q0; the transport is configured once and handed the all-off frame. That BM holds
no value and that the frame is 0x11 bytes are the spec's decisions D9 and D15. -/
def Obligations.ConstructionLeavesTheResetState : Prop :=
  ∀ (n : Nat) (q0 : Intensity), 1 ≤ n →
    ∃ s, (construct n q0 .ok).result = .ok s ∧
      (construct n q0 .ok).configureCalls = 1 ∧
      (construct n q0 .ok).sent = [⟨List.replicate (12 * n) 0x11, .ok⟩] ∧
      s.n = n ∧ s.q = q0 ∧
      s.wb = List.replicate (3 * n) 0 ∧
      s.tb = List.replicate (12 * n) 0x11 ∧
      s.bm.length = 3 + n ∧ (∀ m, s.readBm m = none) ∧
      s.txlog = [⟨List.replicate (12 * n) 0x11, .ok⟩] ∧
      decodeFrame s.tb = List.replicate (3 * n) 0 ∧
      s = State.afterReset n q0

/-- 60_exceptions.md R121: a reset with no LEDs creates no block, configures nothing and sends
nothing. -/
def Obligations.ConstructionRefusesNoLeds : Prop :=
  ∀ (ledCount : Int) (q0 : Intensity) (draw : TransportOutcome), ledCount ≤ 0 →
    (construct ledCount q0 draw).result = .error .constructionError ∧
    (construct ledCount q0 draw).configureCalls = 0 ∧
    (construct ledCount q0 draw).sent = []

/-- 70_reset_and_hazards.md R143, the spec's decision D22: a failed all-off transmission leaves no
block. -/
def Obligations.ConstructionFailsWithItsTransmission : Prop :=
  ∀ (n : Nat) (q0 : Intensity), 1 ≤ n →
    (construct n q0 .fail).result = .error .transportError ∧
    (construct n q0 .fail).configureCalls = 1 ∧
    (construct n q0 .fail).sent = [⟨List.replicate (12 * n) 0x11, .fail⟩]

/-! ### The host's side -/

/-- 40_scaler.md R75; the lower clamp and the refusal of NaN are the spec's decision D7. Under either
treatment of ties the result is in [0, 256] and nearest to 256 times the clamped request. -/
def Obligations.QuantiseRoundsTheClampedRequest : Prop :=
  ∀ ties : RoundTies,
    (∀ f : Rat, ∃ q : Nat, quantise ties (.finite f) = some q ∧ q ≤ 256 ∧
      (1 ≤ f → q = 256) ∧ (f ≤ 0 → q = 0) ∧
      (0 ≤ f → f ≤ 1 → (q : Rat) - f * 256 ≤ 1 / 2 ∧ f * 256 - (q : Rat) ≤ 1 / 2)) ∧
    quantise ties .posInf = some 256 ∧ quantise ties .negInf = some 0 ∧ quantise ties .nan = none

/-- 00_scope.md R7, 93_implementation_defined.md U5: the two treatments differ at the 256 ties only, where
one gives the even neighbour and the other the upper one. -/
def Obligations.TiesDecideOnlyTies : Prop :=
  (∀ k : Nat, k < 256 →
    quantise .halfAwayFromZero (.finite ((k + 1 / 2) / 256)) = some (k + 1) ∧
    quantise .halfToEven (.finite ((k + 1 / 2) / 256)) = some (k + k % 2)) ∧
  (∀ f : Rat, (∀ k : Nat, k < 256 → f * 256 ≠ k + 1 / 2) →
    quantise .halfToEven (.finite f) = quantise .halfAwayFromZero (.finite f))

/-- 40_scaler.md R76, R77: setting what was read changes nothing, and the saturation of SETQ never acts
on what `set_intensity` issues. -/
def Obligations.SetIntensityStoresTheQuantised : Prop :=
  (∀ (ties : RoundTies) (q : Intensity), quantise ties (getIntensity q.val) = some q.val) ∧
  (∀ (ties : RoundTies) (f : HostFloat) (i : Instr) (s : State), setIntensity ties f = some i →
    ∃ q t, quantise ties f = some q ∧ exec i s = .next t ∧ t.q.val = q)

/-! ### The command port -/

/-- 00_scope.md R9, the spec's decision D20: a command takes effect only on a chain of 1 to 2^24 - 1 LEDs,
and there the value FILL answers with is the LED index itself, whatever its `start`. That a command is
refused on any other chain is the model's choice (notes/assumptions/15.md). -/
def Obligations.PortBoundsTheChain : Prop :=
  (∀ (s : State) (words : List Word) (ext : List Byte) (rest : List HostInput),
    s.inbox = .command words ext :: rest →
    (step s = .refused .beyondPort ↔ s.n = 0 ∨ 2 ^ 24 - 1 < s.n) ∧
    (∀ t, step s = .next t → 1 ≤ t.n ∧ t.n ≤ 2 ^ 24 - 1)) ∧
  (∀ (s : State) (start : BitVec 24) (data : List Triple) (ext : List Byte) (rest : List HostInput),
    data.length < 2 ^ 32 → 1 ≤ s.n → s.n ≤ 2 ^ 24 - 1 →
    s.inbox = issue (.fill start data) ext :: rest →
    ∃ t, step s = .next t ∧
      Responds 0 (start.toNat + min data.length (s.n - start.toNat)) s t)
end

