-- ==== Sys2Proof/Laws/Decode.lean ====
section
/-! SUPPORT. The decoder's fields and payload readers on what the encoder writes. -/

namespace Sys2Proof

@[simp] theorem opField_headerWord (op : BitVec 8) (a : BitVec 24) :
    opField (headerWord op a) = op := by
  ext i hi
  simp only [opField, headerWord, BitVec.getElem_extractLsb', BitVec.getLsbD_append]
  simp [show ¬ 24 + i < 24 by omega, BitVec.getLsbD_eq_getElem hi]

@[simp] theorem aField_headerWord (op : BitVec 8) (a : BitVec 24) :
    aField (headerWord op a) = a := by
  ext i hi
  simp only [aField, headerWord, BitVec.getElem_extractLsb', BitVec.getLsbD_append]
  simp [hi]

@[simp] theorem opField_immediateWord (op : BitVec 8) (imm16 : BitVec 16) :
    opField (immediateWord op imm16) = op := by
  ext i hi
  simp only [opField, immediateWord, BitVec.getElem_extractLsb', BitVec.getLsbD_append]
  simp [show ¬ 24 + i < 16 by omega, show ¬ 24 + i - 16 < 8 by omega,
    show 24 + i - 16 - 8 = i by omega, BitVec.getLsbD_eq_getElem hi]

@[simp] theorem midByte_immediateWord (op : BitVec 8) (imm16 : BitVec 16) :
    midByte (immediateWord op imm16) = 0#8 := by
  ext i hi
  simp only [midByte, immediateWord, BitVec.getElem_extractLsb', BitVec.getLsbD_append]
  simp [hi]

@[simp] theorem lowHalf_immediateWord (op : BitVec 8) (imm16 : BitVec 16) :
    lowHalf (immediateWord op imm16) = imm16 := by
  ext i hi
  simp only [lowHalf, immediateWord, BitVec.getElem_extractLsb', BitVec.getLsbD_append]
  simp [hi]

/-- A triple word is read back (30_encoding.md R62). -/
@[simp] theorem decodeTriple_tripleWord (t : Triple) : decodeTriple (tripleWord t) = .ok t := by
  have h : opField (tripleWord t) = 0 := by
    ext i hi
    simp only [opField, tripleWord, BitVec.getElem_extractLsb', BitVec.getLsbD_append]
    simp [show ¬ 24 + i < 8 by omega, show ¬ 24 + i - 8 < 8 by omega,
      show ¬ 24 + i - 8 - 8 < 8 by omega]
  have hr : (tripleWord t).extractLsb' 16 8 = t.r := by
    ext i hi
    simp only [tripleWord, BitVec.getElem_extractLsb', BitVec.getLsbD_append]
    simp [show ¬ 16 + i < 8 by omega, show ¬ 16 + i - 8 < 8 by omega,
      show 16 + i - 8 - 8 = i by omega, hi]
  have hg : (tripleWord t).extractLsb' 8 8 = t.g := by
    ext i hi
    simp only [tripleWord, BitVec.getElem_extractLsb', BitVec.getLsbD_append]
    simp [hi]
  have hb : (tripleWord t).extractLsb' 0 8 = t.b := by
    ext i hi
    simp only [tripleWord, BitVec.getElem_extractLsb', BitVec.getLsbD_append]
    simp [hi]
  simp [decodeTriple, h, hr, hg, hb]

/-- An offset word is read back (R62). -/
@[simp] theorem decodeOffset_offsetWord (o : Offset) : decodeOffset (offsetWord o) = .ok o := by
  have h : highHalf (offsetWord o) = 0 := by
    ext i hi
    simp only [highHalf, offsetWord, BitVec.getElem_extractLsb', BitVec.getLsbD_append]
    simp [show ¬ 16 + i < 16 by omega]
  have hl : lowHalf (offsetWord o) = o := by
    ext i hi
    simp only [lowHalf, offsetWord, BitVec.getElem_extractLsb', BitVec.getLsbD_append]
    simp [hi]
  simp [decodeOffset, h, hl]

/-- A payload of encoded elements is read back, where one element is. -/
theorem decodeAll_map {α : Type} {read : Word → Except DecodeError α} {write : α → Word}
    (h : ∀ x, read (write x) = .ok x) (xs : List α) : decodeAll read (xs.map write) = .ok xs := by
  induction xs with
  | nil => rfl
  | cons x xs ih => simp [decodeAll, h, ih]

/-- The count word counts (R61), for a list that has an encoding. -/
theorem countWord_toNat {α : Type} {xs : List α} (h : countFits xs = true) :
    (countWord xs).toNat = xs.length := by
  simp only [countFits, decide_eq_true_eq] at h
  rw [countWord, BitVec.toNat_ofNat, Nat.mod_eq_of_lt h]

end Sys2Proof
end

