-- ==== Sys2Proof/Laws/Operands.lean ====
section
/-! SUPPORT. The operand functions, said once: the expander by bits, the zero of the scaler, and a way
to check a property of all bytes that the kernel evaluates fast. -/

namespace Sys2Proof.Machine

/-- A property of every byte, from its check on the numbers 0 to 255. -/
theorem forall_byte {p : Byte → Bool}
    (h : (List.range 256).all (fun m => p (BitVec.ofNat 8 m)) = true) (v : Byte) : p v = true := by
  have := List.all_eq_true.mp h v.toNat (by simp; exact v.isLt)
  simpa using this

/-- The four formulas of the expander by the bits they carry (30_encoding.md R52). -/
theorem expand_eq_txBytes (v : Byte) :
    expand v =
      [txByte (v.getLsbD 7) (v.getLsbD 6), txByte (v.getLsbD 5) (v.getLsbD 4),
       txByte (v.getLsbD 3) (v.getLsbD 2), txByte (v.getLsbD 1) (v.getLsbD 0)] := by
  have := forall_byte (p := fun v =>
    expand v ==
      [txByte (v.getLsbD 7) (v.getLsbD 6), txByte (v.getLsbD 5) (v.getLsbD 4),
       txByte (v.getLsbD 3) (v.getLsbD 2), txByte (v.getLsbD 1) (v.getLsbD 0)])
    (by decide +kernel) v
  simpa using this

@[simp] theorem expand_length (v : Byte) : (expand v).length = 4 := rfl

@[simp] theorem txByte_isCodeWord (a b : Bool) : isCodeWord (txByte a b) = true := by
  cases a <;> cases b <;> decide

@[simp] theorem txByte_bit5 (a b : Bool) : (txByte a b)[5] = a := by
  cases a <;> cases b <;> decide

@[simp] theorem txByte_bit1 (a b : Bool) : (txByte a b)[1] = b := by
  cases a <;> cases b <;> decide

/-- Each bit of `byteOfBits` is the one given. -/
theorem byteOfBits_bits : ∀ b7 b6 b5 b4 b3 b2 b1 b0 : Bool,
    (byteOfBits b7 b6 b5 b4 b3 b2 b1 b0)[7] = b7 ∧ (byteOfBits b7 b6 b5 b4 b3 b2 b1 b0)[6] = b6 ∧
    (byteOfBits b7 b6 b5 b4 b3 b2 b1 b0)[5] = b5 ∧ (byteOfBits b7 b6 b5 b4 b3 b2 b1 b0)[4] = b4 ∧
    (byteOfBits b7 b6 b5 b4 b3 b2 b1 b0)[3] = b3 ∧ (byteOfBits b7 b6 b5 b4 b3 b2 b1 b0)[2] = b2 ∧
    (byteOfBits b7 b6 b5 b4 b3 b2 b1 b0)[1] = b1 ∧
    (byteOfBits b7 b6 b5 b4 b3 b2 b1 b0)[0] = b0 := by
  decide

/-- Every byte the expander writes is a code word (30_encoding.md R53). -/
theorem expand_codeWords (v : Byte) : ∀ b ∈ expand v, isCodeWord b = true := by
  rw [expand_eq_txBytes]
  simp

/-- A channel byte of zero scales to zero at every intensity (40_scaler.md R72). -/
@[simp] theorem scale_zero (q : Intensity) : scale 0#8 q = 0#8 := by simp [scale]

end Sys2Proof.Machine
end

