-- ==== Sys2Proof/Laws/State.lean ====
section
/-! SUPPORT. One lemma per field per update of the state, so that no proof unfolds a record update; and
the frames of the updates, from which the frame of a command is put together. -/

namespace Sys2Proof.Machine

variable (s : State)

/-! ### setQ -/

@[simp] theorem setQ_n (x : Intensity) : (s.setQ x).n = s.n := rfl
@[simp] theorem setQ_q (x : Intensity) : (s.setQ x).q = x := rfl
@[simp] theorem setQ_wb (x : Intensity) : (s.setQ x).wb = s.wb := rfl
@[simp] theorem setQ_tb (x : Intensity) : (s.setQ x).tb = s.tb := rfl
@[simp] theorem setQ_bm (x : Intensity) : (s.setQ x).bm = s.bm := rfl
@[simp] theorem setQ_txlog (x : Intensity) : (s.setQ x).txlog = s.txlog := rfl
@[simp] theorem setQ_rsplog (x : Intensity) : (s.setQ x).rsplog = s.rsplog := rfl
@[simp] theorem setQ_ext (x : Intensity) : (s.setQ x).ext = s.ext := rfl
@[simp] theorem setQ_draws (x : Intensity) : (s.setQ x).draws = s.draws := rfl
@[simp] theorem setQ_inbox (x : Intensity) : (s.setQ x).inbox = s.inbox := rfl
@[simp] theorem setQ_wire (x : Intensity) : (s.setQ x).wire = s.wire := rfl

/-! ### setWb -/

@[simp] theorem setWb_n (x : List Byte) : (s.setWb x).n = s.n := rfl
@[simp] theorem setWb_q (x : List Byte) : (s.setWb x).q = s.q := rfl
@[simp] theorem setWb_wb (x : List Byte) : (s.setWb x).wb = x := rfl
@[simp] theorem setWb_tb (x : List Byte) : (s.setWb x).tb = s.tb := rfl
@[simp] theorem setWb_bm (x : List Byte) : (s.setWb x).bm = s.bm := rfl
@[simp] theorem setWb_txlog (x : List Byte) : (s.setWb x).txlog = s.txlog := rfl
@[simp] theorem setWb_rsplog (x : List Byte) : (s.setWb x).rsplog = s.rsplog := rfl
@[simp] theorem setWb_ext (x : List Byte) : (s.setWb x).ext = s.ext := rfl
@[simp] theorem setWb_draws (x : List Byte) : (s.setWb x).draws = s.draws := rfl
@[simp] theorem setWb_inbox (x : List Byte) : (s.setWb x).inbox = s.inbox := rfl
@[simp] theorem setWb_wire (x : List Byte) : (s.setWb x).wire = s.wire := rfl

/-! ### setTb -/

@[simp] theorem setTb_n (x : List Byte) : (s.setTb x).n = s.n := rfl
@[simp] theorem setTb_q (x : List Byte) : (s.setTb x).q = s.q := rfl
@[simp] theorem setTb_wb (x : List Byte) : (s.setTb x).wb = s.wb := rfl
@[simp] theorem setTb_tb (x : List Byte) : (s.setTb x).tb = x := rfl
@[simp] theorem setTb_bm (x : List Byte) : (s.setTb x).bm = s.bm := rfl
@[simp] theorem setTb_txlog (x : List Byte) : (s.setTb x).txlog = s.txlog := rfl
@[simp] theorem setTb_rsplog (x : List Byte) : (s.setTb x).rsplog = s.rsplog := rfl
@[simp] theorem setTb_ext (x : List Byte) : (s.setTb x).ext = s.ext := rfl
@[simp] theorem setTb_draws (x : List Byte) : (s.setTb x).draws = s.draws := rfl
@[simp] theorem setTb_inbox (x : List Byte) : (s.setTb x).inbox = s.inbox := rfl
@[simp] theorem setTb_wire (x : List Byte) : (s.setTb x).wire = s.wire := rfl

/-! ### setBm -/

@[simp] theorem setBm_n (x : List (Option Offset)) : (s.setBm x).n = s.n := rfl
@[simp] theorem setBm_q (x : List (Option Offset)) : (s.setBm x).q = s.q := rfl
@[simp] theorem setBm_wb (x : List (Option Offset)) : (s.setBm x).wb = s.wb := rfl
@[simp] theorem setBm_tb (x : List (Option Offset)) : (s.setBm x).tb = s.tb := rfl
@[simp] theorem setBm_bm (x : List (Option Offset)) : (s.setBm x).bm = x := rfl
@[simp] theorem setBm_txlog (x : List (Option Offset)) : (s.setBm x).txlog = s.txlog := rfl
@[simp] theorem setBm_rsplog (x : List (Option Offset)) : (s.setBm x).rsplog = s.rsplog := rfl
@[simp] theorem setBm_ext (x : List (Option Offset)) : (s.setBm x).ext = s.ext := rfl
@[simp] theorem setBm_draws (x : List (Option Offset)) : (s.setBm x).draws = s.draws := rfl
@[simp] theorem setBm_inbox (x : List (Option Offset)) : (s.setBm x).inbox = s.inbox := rfl
@[simp] theorem setBm_wire (x : List (Option Offset)) : (s.setBm x).wire = s.wire := rfl

/-! ### setWire -/

@[simp] theorem setWire_n (x : WireDecoder) : (s.setWire x).n = s.n := rfl
@[simp] theorem setWire_q (x : WireDecoder) : (s.setWire x).q = s.q := rfl
@[simp] theorem setWire_wb (x : WireDecoder) : (s.setWire x).wb = s.wb := rfl
@[simp] theorem setWire_tb (x : WireDecoder) : (s.setWire x).tb = s.tb := rfl
@[simp] theorem setWire_bm (x : WireDecoder) : (s.setWire x).bm = s.bm := rfl
@[simp] theorem setWire_txlog (x : WireDecoder) : (s.setWire x).txlog = s.txlog := rfl
@[simp] theorem setWire_rsplog (x : WireDecoder) : (s.setWire x).rsplog = s.rsplog := rfl
@[simp] theorem setWire_ext (x : WireDecoder) : (s.setWire x).ext = s.ext := rfl
@[simp] theorem setWire_draws (x : WireDecoder) : (s.setWire x).draws = s.draws := rfl
@[simp] theorem setWire_inbox (x : WireDecoder) : (s.setWire x).inbox = s.inbox := rfl
@[simp] theorem setWire_wire (x : WireDecoder) : (s.setWire x).wire = x := rfl

/-! ### respond -/

@[simp] theorem respond_n (st : BitVec 4) (v : BitVec 24) : (respond st v s).n = s.n := rfl
@[simp] theorem respond_q (st : BitVec 4) (v : BitVec 24) : (respond st v s).q = s.q := rfl
@[simp] theorem respond_wb (st : BitVec 4) (v : BitVec 24) : (respond st v s).wb = s.wb := rfl
@[simp] theorem respond_tb (st : BitVec 4) (v : BitVec 24) : (respond st v s).tb = s.tb := rfl
@[simp] theorem respond_bm (st : BitVec 4) (v : BitVec 24) : (respond st v s).bm = s.bm := rfl
@[simp] theorem respond_txlog (st : BitVec 4) (v : BitVec 24) : (respond st v s).txlog = s.txlog := rfl
@[simp] theorem respond_rsplog (st : BitVec 4) (v : BitVec 24) : (respond st v s).rsplog = s.rsplog ++ [responseWord st v] := rfl
@[simp] theorem respond_ext (st : BitVec 4) (v : BitVec 24) : (respond st v s).ext = s.ext := rfl
@[simp] theorem respond_draws (st : BitVec 4) (v : BitVec 24) : (respond st v s).draws = s.draws := rfl
@[simp] theorem respond_inbox (st : BitVec 4) (v : BitVec 24) : (respond st v s).inbox = s.inbox := rfl
@[simp] theorem respond_wire (st : BitVec 4) (v : BitVec 24) : (respond st v s).wire = s.wire := rfl

/-! ### raise -/

@[simp] theorem raise_n (e : CommandError) : (raise e s).n = s.n := rfl
@[simp] theorem raise_q (e : CommandError) : (raise e s).q = s.q := rfl
@[simp] theorem raise_wb (e : CommandError) : (raise e s).wb = s.wb := rfl
@[simp] theorem raise_tb (e : CommandError) : (raise e s).tb = s.tb := rfl
@[simp] theorem raise_bm (e : CommandError) : (raise e s).bm = s.bm := rfl
@[simp] theorem raise_txlog (e : CommandError) : (raise e s).txlog = s.txlog := rfl
@[simp] theorem raise_rsplog (e : CommandError) : (raise e s).rsplog = s.rsplog ++ [responseWord e.status 0] := rfl
@[simp] theorem raise_ext (e : CommandError) : (raise e s).ext = s.ext := rfl
@[simp] theorem raise_draws (e : CommandError) : (raise e s).draws = s.draws := rfl
@[simp] theorem raise_inbox (e : CommandError) : (raise e s).inbox = s.inbox := rfl
@[simp] theorem raise_wire (e : CommandError) : (raise e s).wire = s.wire := rfl

/-! ### transmit -/

@[simp] theorem transmit_n : (transmit s).n = s.n := rfl
@[simp] theorem transmit_q : (transmit s).q = s.q := rfl
@[simp] theorem transmit_wb : (transmit s).wb = s.wb := rfl
@[simp] theorem transmit_tb : (transmit s).tb = s.tb := rfl
@[simp] theorem transmit_bm : (transmit s).bm = s.bm := rfl
@[simp] theorem transmit_txlog : (transmit s).txlog = s.txlog ++ [⟨s.tb, nextOutcome s⟩] := rfl
@[simp] theorem transmit_rsplog : (transmit s).rsplog = s.rsplog := rfl
@[simp] theorem transmit_ext : (transmit s).ext = s.ext := rfl
@[simp] theorem transmit_draws : (transmit s).draws = s.draws.tail := rfl
@[simp] theorem transmit_inbox : (transmit s).inbox = s.inbox := rfl
@[simp] theorem transmit_wire : (transmit s).wire = s.wire := rfl

/-! ### encodePass -/

@[simp] theorem encodePass_n : (encodePass s).n = s.n := rfl
@[simp] theorem encodePass_q : (encodePass s).q = s.q := rfl
@[simp] theorem encodePass_wb : (encodePass s).wb = s.wb := rfl
@[simp] theorem encodePass_tb : (encodePass s).tb = encodeBytes s.wb s.q := rfl
@[simp] theorem encodePass_bm : (encodePass s).bm = s.bm := rfl
@[simp] theorem encodePass_txlog : (encodePass s).txlog = s.txlog := rfl
@[simp] theorem encodePass_rsplog : (encodePass s).rsplog = s.rsplog := rfl
@[simp] theorem encodePass_ext : (encodePass s).ext = s.ext := rfl
@[simp] theorem encodePass_draws : (encodePass s).draws = s.draws := rfl
@[simp] theorem encodePass_inbox : (encodePass s).inbox = s.inbox := rfl
@[simp] theorem encodePass_wire : (encodePass s).wire = s.wire := rfl

/-! ### beginCommand -/

@[simp] theorem beginCommand_n (x : List Byte) (rest : List HostInput) : (beginCommand x rest s).n = s.n := rfl
@[simp] theorem beginCommand_q (x : List Byte) (rest : List HostInput) : (beginCommand x rest s).q = s.q := rfl
@[simp] theorem beginCommand_wb (x : List Byte) (rest : List HostInput) : (beginCommand x rest s).wb = s.wb := rfl
@[simp] theorem beginCommand_tb (x : List Byte) (rest : List HostInput) : (beginCommand x rest s).tb = s.tb := rfl
@[simp] theorem beginCommand_bm (x : List Byte) (rest : List HostInput) : (beginCommand x rest s).bm = s.bm := rfl
@[simp] theorem beginCommand_txlog (x : List Byte) (rest : List HostInput) : (beginCommand x rest s).txlog = s.txlog := rfl
@[simp] theorem beginCommand_rsplog (x : List Byte) (rest : List HostInput) : (beginCommand x rest s).rsplog = s.rsplog := rfl
@[simp] theorem beginCommand_ext (x : List Byte) (rest : List HostInput) : (beginCommand x rest s).ext = x := rfl
@[simp] theorem beginCommand_draws (x : List Byte) (rest : List HostInput) : (beginCommand x rest s).draws = s.draws := rfl
@[simp] theorem beginCommand_inbox (x : List Byte) (rest : List HostInput) : (beginCommand x rest s).inbox = rest := rfl
@[simp] theorem beginCommand_wire (x : List Byte) (rest : List HostInput) : (beginCommand x rest s).wire = s.wire := rfl

/-! ### beginWireByte -/

@[simp] theorem beginWireByte_n (rest : List HostInput) : (beginWireByte rest s).n = s.n := rfl
@[simp] theorem beginWireByte_q (rest : List HostInput) : (beginWireByte rest s).q = s.q := rfl
@[simp] theorem beginWireByte_wb (rest : List HostInput) : (beginWireByte rest s).wb = s.wb := rfl
@[simp] theorem beginWireByte_tb (rest : List HostInput) : (beginWireByte rest s).tb = s.tb := rfl
@[simp] theorem beginWireByte_bm (rest : List HostInput) : (beginWireByte rest s).bm = s.bm := rfl
@[simp] theorem beginWireByte_txlog (rest : List HostInput) : (beginWireByte rest s).txlog = s.txlog := rfl
@[simp] theorem beginWireByte_rsplog (rest : List HostInput) : (beginWireByte rest s).rsplog = s.rsplog := rfl
@[simp] theorem beginWireByte_ext (rest : List HostInput) : (beginWireByte rest s).ext = s.ext := rfl
@[simp] theorem beginWireByte_draws (rest : List HostInput) : (beginWireByte rest s).draws = s.draws := rfl
@[simp] theorem beginWireByte_inbox (rest : List HostInput) : (beginWireByte rest s).inbox = rest := rfl
@[simp] theorem beginWireByte_wire (rest : List HostInput) : (beginWireByte rest s).wire = s.wire := rfl

/-! ### conclude -/

@[simp] theorem conclude_n (o : TransportOutcome) : (conclude o s).n = s.n := by cases o <;> rfl
@[simp] theorem conclude_q (o : TransportOutcome) : (conclude o s).q = s.q := by cases o <;> rfl
@[simp] theorem conclude_wb (o : TransportOutcome) : (conclude o s).wb = s.wb := by cases o <;> rfl
@[simp] theorem conclude_tb (o : TransportOutcome) : (conclude o s).tb = s.tb := by cases o <;> rfl
@[simp] theorem conclude_bm (o : TransportOutcome) : (conclude o s).bm = s.bm := by cases o <;> rfl
@[simp] theorem conclude_txlog (o : TransportOutcome) : (conclude o s).txlog = s.txlog := by cases o <;> rfl
/-- The response of a command whose last step was a transmission. -/
@[simp] theorem conclude_rsplog (o : TransportOutcome) :
    (conclude o s).rsplog = s.rsplog ++ [responseWord (outcomeStatus o) 0] := by cases o <;> rfl
@[simp] theorem conclude_ext (o : TransportOutcome) : (conclude o s).ext = s.ext := by cases o <;> rfl
@[simp] theorem conclude_draws (o : TransportOutcome) : (conclude o s).draws = s.draws := by cases o <;> rfl
@[simp] theorem conclude_inbox (o : TransportOutcome) : (conclude o s).inbox = s.inbox := by cases o <;> rfl
@[simp] theorem conclude_wire (o : TransportOutcome) : (conclude o s).wire = s.wire := by cases o <;> rfl

/-! ### The transport's answer -/

@[simp] theorem nextOutcome_setWb (x : List Byte) : nextOutcome (s.setWb x) = nextOutcome s := rfl
@[simp] theorem nextOutcome_setTb (x : List Byte) : nextOutcome (s.setTb x) = nextOutcome s := rfl
@[simp] theorem nextOutcome_encodePass : nextOutcome (encodePass s) = nextOutcome s := rfl

/-- Where the transport's answers are listed, the next of them is the answer (00_scope.md R6). -/
theorem nextOutcome_of_draws {s : State} {o : TransportOutcome} {rest : List TransportOutcome}
    (h : s.draws = o :: rest) : nextOutcome s = o := by
  simp [nextOutcome, h]

/-! ### Response words (30_encoding.md R64) -/

@[simp] theorem responseStatus_responseWord (st : BitVec 4) (v : BitVec 24) :
    responseStatus (responseWord st v) = st := by
  ext i hi
  simp only [responseStatus, responseWord, BitVec.getElem_extractLsb', BitVec.getLsbD_append]
  simp [show ¬ 28 + i < 24 by omega, show ¬ 28 + i - 24 < 4 by omega,
    show 28 + i - 24 - 4 = i by omega, hi]

@[simp] theorem responseGap_responseWord (st : BitVec 4) (v : BitVec 24) :
    responseGap (responseWord st v) = 0#4 := by
  ext i hi
  simp only [responseGap, responseWord, BitVec.getElem_extractLsb', BitVec.getLsbD_append]
  simp [show ¬ 24 + i < 24 by omega]
  omega

@[simp] theorem responseValue_responseWord (st : BitVec 4) (v : BitVec 24) :
    responseValue (responseWord st v) = v := by
  ext i hi
  simp only [responseValue, responseWord, BitVec.getElem_extractLsb', BitVec.getLsbD_append]
  simp [hi]

/-! ### Frames -/

/-- A frame is shown field by field. -/
theorem keepsAllBut_of_fields {changed : List Part} {s t : State}
    (hn : Part.n ∉ changed → t.n = s.n) (hq : Part.q ∉ changed → t.q = s.q)
    (hwb : Part.wb ∉ changed → t.wb = s.wb) (htb : Part.tb ∉ changed → t.tb = s.tb)
    (hbm : Part.bm ∉ changed → t.bm = s.bm) (htx : Part.txlog ∉ changed → t.txlog = s.txlog)
    (hrsp : Part.rsplog ∉ changed → t.rsplog = s.rsplog) (hext : Part.ext ∉ changed → t.ext = s.ext)
    (hdraws : Part.draws ∉ changed → t.draws = s.draws)
    (hinbox : Part.inbox ∉ changed → t.inbox = s.inbox)
    (hwire : Part.wire ∉ changed → t.wire = s.wire) : KeepsAllBut changed s t := by
  intro p hp
  cases p with
  | n => exact hn hp
  | q => exact hq hp
  | wb => intro k; simp [State.readWb, hwb hp]
  | tb => intro k; simp [State.readTb, htb hp]
  | bm => exact ⟨by rw [hbm hp], fun m => by simp [State.readBm, hbm hp]⟩
  | txlog => exact htx hp
  | rsplog => exact hrsp hp
  | ext => intro k; simp [State.readExt, hext hp]
  | draws => exact hdraws hp
  | inbox => exact hinbox hp
  | wire => exact hwire hp

end Sys2Proof.Machine
end

