-- ==== Sys2Proof/Laws/Ops.lean ====
section
/-! SUPPORT. What each shared operation does, said once: lengths, elements, and that every command keeps
the sizes of the block's spaces (10_state.md R18). -/

namespace Sys2Proof.Machine

/-! ### storeAt -/

@[simp] theorem storeAt_length {α : Type} (xs : List α) (i : Nat) (ys : List α) :
    (storeAt xs i ys).length = xs.length := by
  induction ys generalizing xs i with
  | nil => rfl
  | cons y ys ih => simp [storeAt, ih]

/-- An element outside the stored range is as before. -/
theorem storeAt_outside {α : Type} (xs : List α) (i : Nat) (ys : List α) (k : Nat)
    (h : k < i ∨ i + ys.length ≤ k) : (storeAt xs i ys)[k]? = xs[k]? := by
  induction ys generalizing xs i with
  | nil => rfl
  | cons y ys ih =>
    rw [List.length_cons] at h
    have hk : i ≠ k := by omega
    have h' : k < i + 1 ∨ i + 1 + ys.length ≤ k := by omega
    rw [storeAt, ih _ _ h', List.getElem?_set_ne hk]

/-- An element inside the stored range and inside the list is the stored one. -/
theorem storeAt_inside {α : Type} (xs : List α) (i : Nat) (ys : List α) (k : Nat)
    (hk : k < ys.length) (hi : i + k < xs.length) : (storeAt xs i ys)[i + k]? = ys[k]? := by
  induction ys generalizing xs i k with
  | nil => simp at hk
  | cons y ys ih =>
    cases k with
    | zero =>
      rw [storeAt, storeAt_outside _ _ _ _ (.inl (by omega))]
      have : i < xs.length := hi
      simp [this]
    | succ k =>
      have := ih (xs.set i y) (i + 1) k (by simpa using hk) (by simp; omega)
      rw [storeAt, show i + (k + 1) = i + 1 + k by omega, this]
      simp

/-! ### The encode pass -/

@[simp] theorem encodeBytes_nil (q : Intensity) : encodeBytes [] q = [] := rfl

@[simp] theorem encodeBytes_cons (v : Byte) (wb : List Byte) (q : Intensity) :
    encodeBytes (v :: wb) q = expand (scale v q) ++ encodeBytes wb q := rfl

@[simp] theorem encodeBytes_length (wb : List Byte) (q : Intensity) :
    (encodeBytes wb q).length = 4 * wb.length := by
  induction wb with
  | nil => rfl
  | cons v wb ih => simp [ih]; omega

/-- Group `k` of the encode pass is the expansion of the scaled channel `k` (41_encoder.md R82). -/
theorem encodeBytes_group (wb : List Byte) (q : Intensity) (k j : Nat) (hj : j < 4) :
    (encodeBytes wb q)[4 * k + j]? = wb[k]?.bind fun v => (expand (scale v q))[j]? := by
  induction wb generalizing k with
  | nil => simp
  | cons v wb ih =>
    cases k with
    | zero =>
      rw [encodeBytes_cons, List.getElem?_append_left (by simp; omega)]
      simp
    | succ k =>
      rw [encodeBytes_cons, List.getElem?_append_right (by simp; omega)]
      simpa [show 4 * (k + 1) + j - 4 = 4 * k + j by omega] using ih k

/-- Every byte of an encode pass is a code word (41_encoder.md R86). -/
theorem encodeBytes_codeWords (wb : List Byte) (q : Intensity) :
    ∀ b ∈ encodeBytes wb q, isCodeWord b = true := by
  intro b hb
  obtain ⟨v, -, hv⟩ := List.mem_flatMap.mp hb
  exact expand_codeWords _ b hv

/-- An all-off work buffer encodes to the all-off frame (41_encoder.md R86). -/
theorem encodeBytes_allOff (n : Nat) (q : Intensity) :
    encodeBytes (List.replicate (3 * n) 0#8) q = allOffFrame n := by
  have h (m : Nat) : encodeBytes (List.replicate m 0#8) q = List.replicate (4 * m) 0x11#8 := by
    induction m with
    | zero => rfl
    | succ m ih =>
      rw [List.replicate_succ, encodeBytes_cons, ih, show 4 * (m + 1) = 4 + 4 * m by omega,
        List.replicate_add]
      congr 1
      rw [scale_zero]; decide
  rw [h, allOffFrame, show 4 * (3 * n) = 12 * n by omega]

/-! ### The fill -/

@[simp] theorem fillWrite_length (n start : Nat) (data : List Triple) (wb : List Byte) :
    (fillWrite n start data wb).length = wb.length := by
  simp [fillWrite]

@[simp] theorem zeroTail_length (ret : Nat) (wb : List Byte) :
    (zeroTail ret wb).length = wb.length := by
  simp [zeroTail]; omega

/-- Before the zero step's range nothing changes (42_workbuffer_fill.md R93). -/
theorem zeroTail_before (ret : Nat) (wb : List Byte) (k : Nat) (h : k < 3 * ret) :
    (zeroTail ret wb)[k]? = wb[k]? := by
  by_cases hk : k < wb.length
  · rw [zeroTail, List.getElem?_append_left (by simp [ledIndex]; omega)]
    simp [ledIndex, h]
  · simp only [not_lt] at hk
    rw [List.getElem?_eq_none (by simpa using hk), List.getElem?_eq_none hk]

/-- In the zero step's range everything is zero (R93). -/
theorem zeroTail_after (ret : Nat) (wb : List Byte) (k : Nat) (h : 3 * ret ≤ k)
    (hk : k < wb.length) : (zeroTail ret wb)[k]? = some 0 := by
  rw [zeroTail, List.getElem?_append_right (by simp [ledIndex]; omega)]
  have : k - min (3 * ret) wb.length < wb.length - 3 * ret := by omega
  simp [ledIndex, this]

@[simp] theorem fillBuffer_length (n start : Nat) (data : List Triple) (wb : List Byte) :
    (fillBuffer n start data wb).length = wb.length := by
  simp [fillBuffer]

@[simp] theorem grbBytes_length (t : Triple) : (grbBytes t).length = 3 := rfl

@[simp] theorem flatMap_grbBytes_length (data : List Triple) :
    (data.flatMap grbBytes).length = 3 * data.length := by
  induction data with
  | nil => rfl
  | cons t data ih => simp [ih]; omega

/-- LED `t` of a list of triples, in transport channel order. -/
theorem flatMap_grbBytes_led (data : List Triple) (t c : Nat) (hc : c < 3) :
    (data.flatMap grbBytes)[3 * t + c]? = data[t]?.bind fun x => (grbBytes x)[c]? := by
  induction data generalizing t with
  | nil => simp
  | cons x data ih =>
    cases t with
    | zero =>
      rw [List.flatMap_cons, List.getElem?_append_left (by simp; omega)]
      simp
    | succ t =>
      rw [List.flatMap_cons, List.getElem?_append_right (by simp; omega)]
      simpa [show 3 * (t + 1) + c - 3 = 3 * t + c by omega] using ih t

/-! ### The buffer map -/

@[simp] theorem mapBuffer_length (n : Nat) (r g b : Offset) (offsets : List Offset)
    (bm : List (Option Offset)) : (mapBuffer n r g b offsets bm).length = bm.length := by
  simp [mapBuffer]

/-- Where the copy through the map gives bytes, it gives three for each LED (43_buffer_map.md R104). -/
theorem readLeds_length {s : State} {i count : Nat} {wb : List Byte}
    (h : readLeds s i count = some wb) : wb.length = 3 * count := by
  induction count generalizing i wb with
  | zero => simp only [readLeds, Option.some.injEq] at h; simp [← h]
  | succ count ih =>
    simp only [readLeds] at h
    split at h
    · rename_i led rest hled hrest
      obtain rfl := Option.some.inj h
      have : led.length = 3 := by
        simp only [readLed] at hled
        split at hled
        · obtain rfl := Option.some.inj hled; rfl
        · cases hled
      simp [this, ih hrest]; omega
    · cases h

/-! ### Every command keeps the sizes of the spaces (10_state.md R18) -/

/-- The canonical form of the memory says what the three lengths are. -/
theorem Memory.wf_iff (s : State) :
    Memory.wf s = true ↔
      s.wb.length = 3 * s.n ∧ s.tb.length = 12 * s.n ∧ s.bm.length = 3 + s.n := by
  simp [Memory.wf, and_assoc]

theorem encodeAndTransmit_wf {s : State} (h : Memory.wf s = true) :
    Memory.wf (encodeAndTransmit s) = true := by
  rw [Memory.wf_iff] at *
  simp [encodeAndTransmit, h]
  omega

/-- Every operation on the memory that a command runs keeps its canonical form. -/
theorem exec_keeps_memory_wf {i : Instr} {s t : State} (h : Memory.wf s = true)
    (he : exec i s = .next t) : Memory.wf t = true := by
  have h' := (Memory.wf_iff s).mp h
  cases i with
  | setq imm => cases he; exact h
  | getq => cases he; exact h
  | fill start data => cases he; rw [Memory.wf_iff]; simp [h']
  | setmap r g b offsets => cases he; rw [Memory.wf_iff]; simp [h']
  | copyx =>
    simp only [exec, execCopyx] at he
    split at he
    · rename_i wb hwb
      cases he
      rw [Memory.wf_iff]
      simp [h', readLeds_length hwb]
    · cases he
  | prep => cases he; rw [Memory.wf_iff]; simp [h']; omega
  | sendb => cases he; exact encodeAndTransmit_wf h
  | showData data =>
    cases he
    exact encodeAndTransmit_wf (by rw [Memory.wf_iff]; simp [h'])
  | txb0 a b => cases he; exact h
  | txb1 a b => cases he; exact h
  | txb2 a b => cases he; exact h
  | txb3 a b => cases he; exact h

/-- The memory has its canonical form after reset. -/
theorem reset_memory_wf : Memory.wf State.reset = true := by decide

/-! ### Steps -/

/-- A step that takes a code word for the wire decoder. -/
theorem step_wireByte {s : State} {b : Byte} {rest : List HostInput}
    (hi : s.inbox = .wireByte b :: rest) (hc : isCodeWord b = true) :
    step s =
      .next (takeTxByte s.wire.pos (b.getLsbD 5) (b.getLsbD 1) (beginWireByte rest s)) := by
  simp only [step, hi, decodeWireByte, hc, if_true]
  split <;> rename_i h <;> rw [h] <;> rfl

theorem portDrives_iff (n : Nat) : portDrives n = true ↔ 1 ≤ n ∧ n ≤ 2 ^ 24 - 1 := by
  simp [portDrives]

/-- On a chain the port drives, a command that decodes is run (00_scope.md R9). -/
theorem step_command {s : State} {words : List Word} {ext : List Byte} {rest : List HostInput} {i : Instr}
    (hi : s.inbox = .command words ext :: rest) (hp : portDrives s.n = true)
    (hd : decodeCommand words = .ok i) : step s = exec i (beginCommand ext rest s) := by
  simp only [step, hi, hp, hd, if_true]

/-- What COPYX does where it gives a next state. -/
theorem exec_copyx_next {s t : State} (h : exec .copyx s = .next t) :
    ∃ wb, readLeds s 0 s.n = some wb ∧ t = respond statusOk 0 (s.setWb wb) := by
  simp only [exec, execCopyx] at h
  split at h
  · rename_i wb hw
    cases h
    exact ⟨wb, hw, rfl⟩
  · cases h

/-- What a step can do: stay idle, run a decoded command or report an illegal one, both only on a chain
the port drives, or run a transmit byte. -/
theorem step_cases {s t : State} (h : step s = .next t) :
    (s.inbox = [] ∧ t = s) ∨
    (∃ words ext rest i, s.inbox = .command words ext :: rest ∧ portDrives s.n = true ∧
      decodeCommand words = .ok i ∧ exec i (beginCommand ext rest s) = .next t) ∨
    (∃ words ext rest e, s.inbox = .command words ext :: rest ∧ portDrives s.n = true ∧
      decodeCommand words = .error e ∧ t = rejectCommand (beginCommand ext rest s)) ∨
    (∃ b rest i, s.inbox = .wireByte b :: rest ∧ decodeWireByte s.wire.pos b = .ok i ∧
      exec i (beginWireByte rest s) = .next t) := by
  simp only [step] at h
  split at h
  · rename_i hi
    cases h
    exact .inl ⟨hi, rfl⟩
  · rename_i words ext rest hi
    split at h
    · rename_i hp
      split at h
      · rename_i i hd
        exact .inr (.inl ⟨words, ext, rest, i, hi, hp, hd, h⟩)
      · rename_i e hd
        cases h
        exact .inr (.inr (.inl ⟨words, ext, rest, e, hi, hp, hd, rfl⟩))
    · cases h
  · rename_i b rest hi
    split at h
    · rename_i i hd
      exact .inr (.inr (.inr ⟨b, rest, i, hi, hd, h⟩))
    · cases h

end Sys2Proof.Machine
end

