-- ==== Sys2Proof/Laws/PerInstr.lean ====
section
/-! SUPPORT. Laws stated for every instruction, one lemma for each constructor. Family TableRow: the
encoder writes the bits that spec/opcode_table.json fixes for the instruction's row. -/

namespace Sys2Proof.Laws

/-- The first word of an encoding, or the transmit byte, as the number the opcode table describes. -/
def firstWord : Encoded → Word
  | .words ws => ws.headD 0
  | .wire _ b => b.setWidth 32

/-- The row's mask and match in spec/opcode_table.json; for the transmit bytes those of their pattern
00a100b1. -/
def tableRow : Instr → Word × Word
  | .setq _ => (0xFFFF0000, 0x01000000)
  | .getq => (0xFFFFFFFF, 0x02000000)
  | .fill _ _ => (0xFF000000, 0x03000000)
  | .setmap _ _ _ _ => (0xFFFFFFFF, 0x04000000)
  | .copyx => (0xFFFFFFFF, 0x05000000)
  | .prep => (0xFFFFFFFF, 0x06000000)
  | .sendb => (0xFFFFFFFF, 0x07000000)
  | .showData _ => (0xFFFFFFFF, 0x08000000)
  | .txb0 _ _ => (0xFFFFFFDD, 0x00000011)
  | .txb1 _ _ => (0xFFFFFFDD, 0x00000011)
  | .txb2 _ _ => (0xFFFFFFDD, 0x00000011)
  | .txb3 _ _ => (0xFFFFFFDD, 0x00000011)

/-- The encoding has the bits its row fixes. -/
def TableRow.Statement (i : Instr) : Prop :=
  firstWord (encode i) &&& (tableRow i).1 = (tableRow i).2

theorem TableRow.setq (imm16 : BitVec 16) : TableRow.Statement (.setq imm16) := by
  simp only [TableRow.Statement, firstWord, encode, tableRow, List.headD_cons, immediateWord]
  apply BitVec.eq_of_getLsbD_eq
  intro i hi
  rw [BitVec.getLsbD_and, BitVec.getLsbD_append]
  interval_cases i <;> simp

theorem TableRow.getq : TableRow.Statement .getq := by
  unfold TableRow.Statement; decide

theorem TableRow.fill (start : BitVec 24) (data : List Triple) :
    TableRow.Statement (.fill start data) := by
  simp only [TableRow.Statement, firstWord, encode, tableRow, List.headD_cons, headerWord]
  apply BitVec.eq_of_getLsbD_eq
  intro i hi
  rw [BitVec.getLsbD_and, BitVec.getLsbD_append]
  interval_cases i <;> simp

theorem TableRow.setmap (rOffset gOffset bOffset : Offset) (offsets : List Offset) :
    TableRow.Statement (.setmap rOffset gOffset bOffset offsets) := by
  simp only [TableRow.Statement, firstWord, encode, tableRow, List.headD_cons]
  decide

theorem TableRow.copyx : TableRow.Statement .copyx := by
  unfold TableRow.Statement; decide

theorem TableRow.prep : TableRow.Statement .prep := by
  unfold TableRow.Statement; decide

theorem TableRow.sendb : TableRow.Statement .sendb := by
  unfold TableRow.Statement; decide

theorem TableRow.showData (data : List Triple) : TableRow.Statement (.showData data) := by
  simp only [TableRow.Statement, firstWord, encode, tableRow, List.headD_cons]
  decide

theorem TableRow.txb0 (a b : Bool) : TableRow.Statement (.txb0 a b) := by
  unfold TableRow.Statement; cases a <;> cases b <;> decide

theorem TableRow.txb1 (a b : Bool) : TableRow.Statement (.txb1 a b) := by
  unfold TableRow.Statement; cases a <;> cases b <;> decide

theorem TableRow.txb2 (a b : Bool) : TableRow.Statement (.txb2 a b) := by
  unfold TableRow.Statement; cases a <;> cases b <;> decide

theorem TableRow.txb3 (a b : Bool) : TableRow.Statement (.txb3 a b) := by
  unfold TableRow.Statement; cases a <;> cases b <;> decide

end Sys2Proof.Laws
end

