-- ==== Sys2Proof/Tests/Slice0.lean ====
section
/-! SUPPORT. Tests on fixed values, each expected result taken from spec/95_test_vectors.md or worked out by
hand from a rule it names, and for every obligation with hypotheses a state and operands that meet them. -/

namespace Sys2Proof.Tests

open Sys2Proof Sys2Proof.Machine

/-! ### Helpers -/

/-- A chain of `n` LEDs with this intensity, work buffer and list of answers of the transport, everything
else as after reset. -/
def chain (n : Nat) (q : Intensity) (wb : List Byte) (draws : List TransportOutcome := []) : State :=
  { State.afterReset n q with wb := wb, draws := draws }

/-- The chain of section 2.5: three LEDs, WB 01 to 09. -/
def three : State := chain 3 256 [1, 2, 3, 4, 5, 6, 7, 8, 9]

/-- The chain of section 2.7: one LED, WB `14 0A 1E`. -/
def one (q : Intensity) (draws : List TransportOutcome := []) : State := chain 1 q [0x14, 0x0A, 0x1E] draws

/-- The chain of program P3 after its step 1, offered P3's external buffer. -/
def mapped : State :=
  { chain 2 256 [0, 0, 0, 0, 0, 0] with
    bm := [some 1, some 0, some 2, some 5, some 9]
    ext := [0, 0, 0, 0, 0, 0x20, 0x10, 0x30, 0xEE, 0x50, 0x40, 0x60] }

/-- One LED, its map loaded with channel offsets 0, 1, 2 and no base, about to run GETQ. -/
def waiting : State :=
  { one 128 with bm := [some 0, some 1, some 2, none], inbox := [.command [0x02000000] []] }

/-- The state a run of one instruction gives, if it gives one. -/
def after (i : Instr) (s : State) : Option State :=
  match exec i s with
  | .next t => some t
  | _ => none

/-- The state one step gives, if it gives one. -/
def stepped (s : State) : Option State :=
  match step s with
  | .next t => some t
  | _ => none

/-- What decodes, if anything does. -/
def decoded (ws : List Word) : Option Instr := (decodeCommand ws).toOption

theorem exec_of_after {i : Instr} {s t : State} (h : after i s = some t) : exec i s = .next t := by
  unfold after at h
  split at h <;> cases h
  assumption

theorem step_of_stepped {s t : State} (h : stepped s = some t) : step s = .next t := by
  unfold stepped at h
  split at h <;> cases h
  assumption

/-! ### WellFormed -/

theorem test_wellFormed_fill (data : List Triple) (h : data.length = 2 ^ 32) :
    (Instr.fill 0 data).wellFormed = false := by
  simp [Instr.wellFormed, countFits, h]

theorem test_wellFormed_showData (data : List Triple) (h : data.length = 2 ^ 32) :
    (Instr.showData data).wellFormed = false := by
  simp [Instr.wellFormed, countFits, h]

theorem test_wellFormed_setmap (offsets : List Offset) (h : offsets.length = 2 ^ 32) :
    (Instr.setmap 0 1 2 offsets).wellFormed = false := by
  simp [Instr.wellFormed, countFits, h]

theorem test_wellFormed_accepts :
    (Instr.fill 16777215 [⟨255, 0, 0⟩]).wellFormed = true ∧
    (Instr.setmap 65535 65535 65535 [65535]).wellFormed = true ∧
    (Instr.showData []).wellFormed = true ∧ (Instr.setq 65535).wellFormed = true := by decide

/-! ### Decoding: section 2.8 and Part 3; the transmit bytes from R51 and R53 -/

theorem test_decode_setq :
    decoded [0x0100FFFF] = some (.setq 65535) ∧ decoded [0x01000100] = some (.setq 256) := by decide
theorem test_decode_getq : decoded [0x02000000] = some .getq := by decide
theorem test_decode_fill :
    decoded [0x03FFFFFF, 0] = some (.fill 16777215 []) ∧
    decoded [0x03000002, 2, 0x00010203, 0x00040506] = some (.fill 2 [⟨1, 2, 3⟩, ⟨4, 5, 6⟩]) := by decide
theorem test_decode_setmap :
    decoded [0x04000000, 0, 0, 1, 2] = some (.setmap 0 1 2 []) ∧
    decoded [0x04000000, 2, 1, 0, 2, 5, 9] = some (.setmap 1 0 2 [5, 9]) := by decide
theorem test_decode_copyx : decoded [0x05000000] = some .copyx := by decide
theorem test_decode_prep : decoded [0x06000000] = some .prep := by decide
theorem test_decode_sendb : decoded [0x07000000] = some .sendb := by decide
theorem test_decode_showData :
    decoded [0x08000000, 1, 0x00FF8003] = some (.showData [⟨255, 128, 3⟩]) := by decide
theorem test_decode_txb0 : decode (.wire 0 0b00010011) = .ok (.txb0 false true) := by rfl
theorem test_decode_txb1 : decode (.wire 1 0b00110001) = .ok (.txb1 true false) := by rfl
theorem test_decode_txb2 : decode (.wire 2 0b00110011) = .ok (.txb2 true true) := by rfl
theorem test_decode_txb3 : decode (.wire 3 0b00010001) = .ok (.txb3 false false) := by rfl

/-- Section 2.8, every illegal word list. -/
theorem test_decode_illegal :
    [[], [0x00000000], [0x09000000], [0xFF000000], [0x02000001], [0x02000000, 0], [0x05FFFFFF],
     [0x01010000], [0x03000000], [0x03000000, 1], [0x03000000, 0, 0], [0x03000000, 1, 0x01000000],
     [0x08000001, 0], [0x08000000, 2, 0x00010203], [0x04000000, 0, 0, 1],
     [0x04000000, 1, 0, 1, 2, 0x00010000], [0x04000000, 1, 0, 1, 0x00010000, 5]].map decoded =
    List.replicate 17 none := by decide

theorem test_decode_notACodeWord :
    decodeWireByte 0 0x00 = .error .notACodeWord ∧ decodeWireByte 3 0x15 = .error .notACodeWord := ⟨rfl, rfl⟩

/-- As the opcode table numbers them: the first word in the low bits, operand words of zeros above. -/
theorem test_tableWord :
    decodeTableWord 32 0x01000080 = some (.setq 128) ∧ decodeTableWord 32 0x03000007 = some (.fill 7 []) ∧
    decodeTableWord 32 0x04000000 = some (.setmap 0 0 0 []) ∧ decodeTableWord 32 0x09000000 = none ∧
    decodeTableWord 64 0x00000000_08000000 = some (.showData []) ∧
    decodeTableWord 8 0x31 = some (.txb0 true false) := by decide

/-! ### Scaler, expander: sections 2.1 and 2.3 -/

theorem test_scale :
    [scale 255 256, scale 255 255, scale 1 255, scale 255 129, scale 255 128, scale 77 200, scale 100 77,
     scale 3 85, scale 3 86, scale 255 2, scale 255 1, scale 255 0] =
    [255, 254, 0, 128, 127, 60, 30, 0, 1, 1, 0, 0] := by decide +kernel

theorem test_expand :
    expand 0x1B = [0x11, 0x13, 0x31, 0x33] ∧ expand 0xE4 = [0x33, 0x31, 0x13, 0x11] ∧
    expand 0xC8 = [0x33, 0x11, 0x31, 0x11] := by decide +kernel

theorem test_decodeGroup :
    decodeGroup ⟨0x11, 0x13, 0x31, 0x33⟩ = 0x1B ∧ decodeGroup ⟨0x20, 0x02, 0x22, 0x00⟩ = 0x9C ∧
    decodeStrict ⟨0x20, 0x02, 0x22, 0x00⟩ = none := by decide +kernel

/-! ### One step of each instruction: sections 2.2 and 2.4 to 2.7 -/

theorem test_setq :
    (after (.setq 300) (one 77)).map (fun t => (t.q.val, t.rsplog)) = some (256, [0x00000000]) ∧
    (after (.setq 128) (one 256)).map (fun t => t.q.val) = some 128 := by decide +kernel

theorem test_getq : (after .getq (one 128)).map (fun t => t.rsplog) = some [0x00000080] := by
  decide +kernel

theorem test_fill_drops_and_swaps :
    (after (.fill 2 [⟨1, 2, 3⟩, ⟨4, 5, 6⟩]) three).map (fun t => (t.wb, t.rsplog)) =
      some ([1, 2, 3, 4, 5, 6, 2, 1, 3], [0x00000003]) := by decide +kernel

theorem test_fill_past_the_end :
    (after (.fill 5 [⟨9, 9, 9⟩]) three).map (fun t => (t.wb, t.rsplog)) =
      some (three.wb, [0x00000005]) ∧
    (after (.fill 1 []) three).map (fun t => t.wb) = some [1, 2, 3, 0, 0, 0, 0, 0, 0] := by decide +kernel

/-- Steps 1 and 4 of section 2.6. -/
theorem test_setmap :
    (after (.setmap 0 1 2 [7]) three).map (fun t => t.bm) =
      some [some 0, some 1, some 2, some 7, none, none] ∧
    (after (.setmap 2 1 0 [10]) { three with bm := [some 0, some 1, some 2, some 1, some 2, some 3] }).map
      (fun t => t.bm) = some [some 2, some 1, some 0, some 10, some 2, some 3] := by decide +kernel

theorem test_copyx : (after .copyx mapped).map (fun t => (t.wb, t.rsplog)) =
    some ([0x20, 0x10, 0x30, 0x50, 0x40, 0x60], [0x00000000]) := by decide +kernel

/-- Steps 6 and 7 of section 2.6: the largest index is 12. -/
theorem test_copyx_bounds :
    let s := { three with bm := [some 2, some 1, some 0, some 10, some 2, some 3] }
    (after .copyx { s with ext := (List.range 13).map (BitVec.ofNat 8) }).map (fun t => t.wb) =
      some [0x0B, 0x0C, 0x0A, 3, 4, 2, 4, 5, 3] ∧
    after .copyx { s with ext := (List.range 12).map (BitVec.ofNat 8) } = none := by decide +kernel

theorem test_prep :
    (after .prep (one 128)).map (fun t => (t.wb, t.tb)) =
      some ([0x14, 0x0A, 0x1E],
        [0x11, 0x11, 0x31, 0x31, 0x11, 0x11, 0x13, 0x13, 0x11, 0x11, 0x33, 0x33]) := by decide +kernel

theorem test_sendb_fails :
    (after .sendb (one 256 [.fail])).map (fun t => (t.rsplog, t.txlog.getLast?)) =
      some ([0x10000000], some ⟨[0x11, 0x13, 0x13, 0x11, 0x11, 0x11, 0x31, 0x31, 0x11, 0x13, 0x33, 0x31],
        .fail⟩) := by decide +kernel

theorem test_showData :
    (after (.showData [⟨0, 0, 1⟩]) (one 256 [.ok])).map (fun t => (t.wb, t.tb, t.rsplog)) =
      some ([0, 0, 1], List.replicate 11 0x11 ++ [0x13], [0x00000000]) := by decide +kernel

/-- V6: the second triple is dropped. -/
theorem test_showData_truncates :
    (after (.showData [⟨10, 20, 30⟩, ⟨40, 50, 60⟩]) (chain 1 256 [0, 0, 0] [.ok])).map (fun t => t.wb) =
      some [0x14, 0x0A, 0x1E] := by decide +kernel

theorem test_txb0 : (after (.txb0 true false) (one 256)).map (fun t => (t.wire.out.out0, t.wire.pos)) =
    some (0x31, 1) := by decide +kernel
theorem test_txb1 : (after (.txb1 false true) (one 256)).map (fun t => (t.wire.out.out1, t.wire.pos)) =
    some (0x13, 2) := by decide +kernel
theorem test_txb2 : (after (.txb2 true true) (one 256)).map (fun t => (t.wire.out.out2, t.wire.values)) =
    some (0x33, []) := by decide +kernel
/-- `11 13 31 33` is 0x1B (section 2.3): the last byte completes the group. -/
theorem test_txb3 :
    (after (.txb3 true true) { one 256 with wire := ⟨3, ⟨0x11, 0x13, 0x31, 0⟩, [7]⟩ }).map
      (fun t => (t.wire.values, t.wire.pos)) = some ([7, 0x1B], 0) := by decide +kernel

/-! ### Steps -/

theorem test_step_idle : stepped State.reset = some State.reset := by decide +kernel

theorem test_step_runs_command :
    (stepped waiting).map (fun t => (t.rsplog, t.inbox)) = some ([0x00000080], []) := by decide +kernel

/-- Every illegal list gets `rsp = 20000000` and changes nothing (section 2.8). -/
theorem test_step_illegal :
    stepped { one 256 with inbox := [.command [0x05FFFFFF] []] } =
      some { one 256 with rsplog := [0x20000000] } := by decide +kernel

theorem test_step_wire :
    (stepped { one 256 with inbox := [.wireByte 0x13] }).map (fun t => t.wire.out.out0) = some 0x13 ∧
    step { one 256 with inbox := [.wireByte 0x00] } = .refused .notACodeWord := ⟨by decide +kernel, rfl⟩

theorem test_withFetchWord :
    (stepped (State.reset.withFetchWord 32 0x01000080)).map (fun t => t.q.val) = some 128 ∧
    (stepped (State.reset.withFetchWord 8 0x31)).map (fun t => t.wire.out.out0) = some 0x31 := by
  decide +kernel

/-- 00_scope.md R9: the port drives 2^24 - 1 LEDs and no more, and no chain of none. -/
theorem test_portDrives :
    portDrives 1 = true ∧ portDrives 16777215 = true ∧ portDrives 16777216 = false ∧
    portDrives 0 = false := by decide

theorem test_step_beyondPort :
    step { waiting with n := 16777216 } = .refused .beyondPort ∧
    (stepped { waiting with n := 16777215 }).map (fun t => t.rsplog) = some [0x00000080] :=
  ⟨rfl, by decide +kernel⟩

/-! ### Reset: section 2.9 -/

theorem test_reset :
    State.reset.tb = List.replicate 48 0x11 ∧ State.reset.wb = List.replicate 12 0 ∧
    State.reset.q.val = 256 ∧ State.reset.bm = List.replicate 7 none ∧
    State.reset.txlog = [⟨List.replicate 48 0x11, .ok⟩] := by decide +kernel

theorem test_construct :
    (construct 2 0 .ok).result.toOption.map (fun s => (s.q.val, s.tb)) =
      some (0, List.replicate 24 0x11) ∧
    (construct 0 256 .ok).result.toOption = none ∧ (construct 0 256 .ok).configureCalls = 0 ∧
    (construct 1 256 .fail).result.toOption = none ∧
    (construct 1 256 .fail).sent = [⟨List.replicate 12 0x11, .fail⟩] := by decide +kernel

/-! ### The host's side: section 2.2 -/

theorem test_quantise :
    [quantise .halfToEven (.finite (1 / 10)), quantise .halfToEven (.finite (3 / 10)),
     quantise .halfToEven (.finite (1 / 1000)), quantise .halfToEven (.finite (2 / 1000)),
     quantise .halfToEven (.finite (5 / 2)), quantise .halfToEven (.finite (-1 / 2)),
     quantise .halfToEven (.finite (257 / 512)), quantise .halfAwayFromZero (.finite (257 / 512)),
     quantise .halfToEven (.finite (511 / 512)), quantise .halfAwayFromZero (.finite (1 / 512)),
     quantise .halfToEven (.finite (1 / 512)), quantise .halfToEven .nan] =
    [some 26, some 77, some 0, some 1, some 256, some 0, some 128, some 129, some 256, some 1, some 0,
     none] := by decide +kernel

theorem test_hostSide :
    getIntensity 26 = .finite (1015625 / 10000000) ∧
    setBufferMap [7] = .setmap 0 1 2 [7] ∧
    showPseudo [⟨1, 2, 3⟩] = .showData [⟨1, 2, 3⟩] ∧
    ((newBlock .halfToEven 1 .ok).bind fun c => c.result.toOption.map fun s => s.q.val) = some 256 := by
  decide +kernel

/-! ### Witnesses: states and operands that meet the hypotheses of the obligations -/

theorem witness_ScaleLaws :
    (254 : Intensity) < 255 ∧ (0 : Intensity) < 1 ∧ (1 : Byte).toNat ≤ (1 : Byte).toNat ∧
    (254 : Byte).toNat ≤ (255 : Byte).toNat ∧ (255 : Intensity).val < 256 := by decide

theorem witness_DecodersInvertExpand : expand 255 = [0x33, 0x33, 0x33, 0x33] := by decide +kernel

theorem witness_EncodePassIsTheLoop :
    Memory.wf (one 128) = true ∧ (one 128 [.fail]).wb = (one 128).wb ∧ (one 128 [.fail]).q = (one 128).q := by
  decide

theorem witness_EncodePassInAnyOrder :
    Memory.wf (one 128) = true ∧ [2, 0, 1].Perm (List.range (3 * (one 128).n)) := by decide +kernel

/-- The clauses of PREP at the first and the last channel, and at intensities 0 and 256. -/
theorem witness_PrepEncodesWithoutSending :
    Memory.wf (one 128) = true ∧ 0 < 3 * (one 128).n ∧ 2 < 3 * (one 128).n ∧
    Memory.wf (one 0) = true ∧ (one 0).q.val = 0 ∧
    Memory.wf (one 256) = true ∧ (one 256).q.val = 256 ∧ (one 256).readWb 2 = some 0x1E ∧
    Memory.wf (chain 1 128 [0, 0, 0]) = true ∧ (chain 1 128 [0, 0, 0]).readWb 2 = some 0 := by decide +kernel

theorem witness_FrameDecodesToScaledChannels :
    ∃ t, exec .prep (one 256) = .next t ∧ (one 256).q.val = 256 := ⟨_, rfl, rfl⟩

/-- The write step at the last LED it reaches, both edges of what it leaves, and both edges of the zero
step. -/
theorem witness_FillStepsWriteWholeTriplesThenZero :
    three.wb.length = 3 * 3 ∧
    ([⟨1, 2, 3⟩, ⟨4, 5, 6⟩] : List Triple)[0]? = some ⟨1, 2, 3⟩ ∧ 2 + 0 < 3 ∧
    5 < 3 * 2 ∧ 3 * (2 + fillCount 3 2 [⟨1, 2, 3⟩, ⟨4, 5, 6⟩]) ≤ 9 ∧
    3 * 1 ≤ 3 ∧ 8 < 3 * 3 ∧ 2 < 3 * 1 := by decide

/-- FILL 1 with one triple on three LEDs: the write clause at LED 1, the zero clause at elements 6 and 8,
the kept clause at elements 2 and 9; N fits 24 bits. -/
theorem witness_FillWritesAndZeroes :
    Memory.wf three = true ∧ ([⟨1, 2, 3⟩] : List Triple)[0]? = some ⟨1, 2, 3⟩ ∧
    (1 : BitVec 24).toNat + 0 < three.n ∧
    3 * ((1 : BitVec 24).toNat + min 1 (three.n - (1 : BitVec 24).toNat)) ≤ 6 ∧ 8 < 3 * three.n ∧
    2 < 3 * (1 : BitVec 24).toNat ∧ 3 * three.n ≤ 9 ∧ three.n < 2 ^ 24 := by decide

theorem witness_FillLeavesLedsBeforeStart :
    (∃ t, exec (.fill 1 [⟨1, 2, 3⟩]) three = .next t) ∧ 0 < 3 * (1 : BitVec 24).toNat ∧
    2 < 3 * (1 : BitVec 24).toNat := ⟨⟨_, rfl⟩, by decide, by decide⟩

theorem witness_FillFromZeroIsTheDataAndZeroes : Memory.wf three = true := by decide

/-- SETMAP of two offsets on a chain of two: bases at LEDs 0 and 1, and the first element past the map. -/
theorem witness_SetmapLoadsTheMap :
    Memory.wf mapped = true ∧ 1 < mapped.n ∧ ([5, 9] : List Offset)[1]? = some 9 ∧
    3 + min ([5, 9] : List Offset).length mapped.n ≤ 5 := by decide

theorem witness_CopyxContract : CopyxContract mapped := by
  intro i c hi hc
  have hi : i < 2 := hi
  interval_cases i <;> interval_cases c <;> exact ⟨_, _, rfl, rfl, by decide⟩

/-- The contract holds, and the clauses' reads at LEDs 0 and 1 have values. -/
theorem witness_CopyxFillsFromExternalBuffer :
    Memory.wf mapped = true ∧ CopyxContract mapped ∧ 0 < mapped.n ∧ 1 < mapped.n ∧
    mapped.readBm (3 + 0) = some 5 ∧ mapped.readBm (3 + 1) = some 9 ∧
    mapped.readBm 0 = some 1 ∧ mapped.readBm 1 = some 0 ∧ mapped.readBm 2 = some 2 :=
  ⟨by decide, witness_CopyxContract, by decide, by decide, rfl, rfl, rfl, rfl, rfl⟩

/-- COPYX stops on a chain whose map was never written, and on an external buffer one byte short. -/
theorem witness_CopyxFaultsOutsideItsContract :
    exec .copyx (one 256) = .fault .externalBounds ∧
    exec .copyx { mapped with ext := mapped.ext.take 11 } = .fault .externalBounds := ⟨rfl, rfl⟩

/-- EXT[8] is never read (P3): a buffer that differs there meets the hypotheses. -/
theorem witness_CopyxReadsOnlyMappedBytes :
    (∃ t, exec .copyx mapped = .next t) ∧ mapped.ext.set 8 0 ≠ mapped.ext ∧
    ∀ i c base offset, i < mapped.n → c < 3 → mapped.readBm (3 + i) = some base →
      mapped.readBm c = some offset →
      (mapped.ext.set 8 0)[base.toNat + offset.toNat]? = mapped.readExt (base.toNat + offset.toNat) := by
  refine ⟨⟨_, rfl⟩, by decide, ?_⟩
  intro i c base offset hi hc hb ho
  have hi : i < 2 := hi
  interval_cases i <;> interval_cases c <;> cases hb <;> cases ho <;> rfl

theorem witness_TransmitHandsOverTheFrame :
    Memory.wf (one 256 [.fail]) = true ∧ nextOutcome (one 256 [.fail]) = .fail := by decide

theorem witness_DrawsAreTakenInOrder :
    (one 256 [.fail, .ok]).draws = .fail :: [.ok] ∧ (one 256 [.ok]).draws = .ok :: [] := by decide

theorem witness_SendbEncodesAndTransmits :
    Memory.wf (one 256 [.fail]) = true ∧ (one 256 [.fail]).draws = .fail :: [] := by decide

theorem witness_ShowFillsEncodesTransmits :
    Memory.wf (one 0 [.ok]) = true ∧ (one 0 [.ok]).q.val = 0 ∧ (one 0 [.ok]).draws = .ok :: [] ∧
    Memory.wf (one 256 [.fail]) = true ∧ ([] : List Triple) = [] := by decide

theorem witness_FailedSendIsNotRolledBack :
    ((Instr.sendb = .sendb) ∨ ∃ data, Instr.sendb = .showData data) ∧
    ((Instr.showData [] = .sendb) ∨ ∃ data, Instr.showData [] = .showData data) :=
  ⟨.inl rfl, .inr ⟨[], rfl⟩⟩

/-- Two chains with different pasts. -/
theorem witness_ShowIsIndependentOfThePast :
    Memory.wf (one 128 [.ok]) = true ∧ Memory.wf (chain 1 128 [1, 2, 3] [.fail]) = true ∧
    (one 128 [.ok]).n = (chain 1 128 [1, 2, 3] [.fail]).n ∧
    (one 128 [.ok]).q = (chain 1 128 [1, 2, 3] [.fail]).q ∧
    (after (.showData [⟨1, 2, 3⟩]) (one 128 [.ok])).isSome = true ∧
    (after (.showData [⟨1, 2, 3⟩]) (chain 1 128 [1, 2, 3] [.fail])).isSome = true := by decide +kernel

theorem witness_ChangesShowOnlyAtTheNextPass :
    (∃ t, exec (.setq 1) (one 256) = .next t) ∧
    (Instr.setq 1 ≠ .prep ∧ Instr.setq 1 ≠ .sendb ∧ ∀ data, Instr.setq 1 ≠ .showData data) ∧
    (∃ t, exec .prep (one 256) = .next t) ∧ (∃ t, exec .sendb (one 256) = .next t) ∧
    (∃ t, exec (.showData []) (one 256) = .next t) :=
  ⟨⟨_, rfl⟩, ⟨nofun, nofun, fun _ => nofun⟩, ⟨_, rfl⟩, ⟨_, rfl⟩, ⟨_, rfl⟩⟩

theorem witness_WireDecoderRecoversTheFrame :
    let s : State := { one 256 with inbox := (encodeBytes [0x14] 256).map HostInput.wireByte ++ [.wireByte 0] }
    s.wire.pos = 0 ∧ s.inbox = (encodeBytes [0x14] 256).map HostInput.wireByte ++ [.wireByte 0] :=
  ⟨rfl, rfl⟩

theorem witness_DecodeInvertsEncode :
    (Instr.fill 16777215 [⟨255, 255, 255⟩]).wellFormed = true ∧
    (Instr.setmap 65535 65535 65535 [65535]).wellFormed = true := by decide

theorem witness_EveryLegalEncodingIsTheEncoders :
    decode (.words [0x03FFFFFF, 0]) = .ok (.fill 16777215 []) ∧
    decode (.wire 3 0x33) = .ok (.txb3 true true) := ⟨rfl, rfl⟩

/-- One input for each clause. -/
theorem witness_StepRunsTheDecodedInstruction :
    State.reset.inbox = [] ∧
    (waiting.inbox = .command [0x02000000] [] :: [] ∧ 1 ≤ waiting.n ∧ waiting.n ≤ 2 ^ 24 - 1 ∧
      decodeCommand [0x02000000] = .ok .getq) ∧
    (({ waiting with n := 2 ^ 24 } : State).inbox = .command [0x02000000] [] :: [] ∧
      2 ^ 24 ≤ ({ waiting with n := 2 ^ 24 } : State).n) ∧
    decodeCommand [] = .error .emptyCommand ∧
    decodeWireByte (one 256).wire.pos 0x33 = .ok (.txb0 true true) ∧
    decodeWireByte (one 256).wire.pos 0xFF = .error .notACodeWord := ⟨rfl, ⟨rfl, by decide, by decide, rfl⟩,
    ⟨rfl, Nat.le_refl _⟩, rfl, rfl, rfl⟩

theorem witness_FetchedWordRunsNext :
    1 ≤ State.reset.n ∧ State.reset.n ≤ 2 ^ 24 - 1 ∧
    decodeTableWord 32 0x02000000 = some .getq ∧ State.reset.wire.pos = 0 ∧
    decodeTableWord 8 0x33 = some (.txb0 true true) := by decide

theorem witness_IssuedCommandRuns :
    let s : State := { one 256 with inbox := issue (.setq 1) [7] :: [.wireByte 0] }
    1 ≤ s.n ∧ s.n ≤ 2 ^ 24 - 1 ∧ (Instr.setq 1).wellFormed = true ∧ encode (.setq 1) = .words [0x01000001] ∧
    s.inbox = issue (.setq 1) [7] :: [.wireByte 0] := ⟨by decide, by decide, rfl, by decide, rfl⟩

theorem witness_OneResponsePerCommand :
    waiting.inbox = .command [0x02000000] [] :: [] ∧ ∃ t, step waiting = .next t := ⟨rfl, ⟨_, rfl⟩⟩

theorem witness_LedCountIsFixed :
    (construct (1 : Nat) 256 .ok).result.toOption.isSome = true ∧ (after .getq (one 256)).isSome = true ∧
    (stepped waiting).isSome = true := by decide +kernel

theorem witness_BuffersKeepTheirSizes :
    (construct 1 256 .ok).result.toOption.isSome = true ∧
    waiting.wb.length = 3 * waiting.n ∧ waiting.tb.length = 4 * waiting.wb.length ∧
    waiting.bm.length = 3 + waiting.n ∧ (stepped waiting).isSome = true := by decide +kernel

/-- GETQ writes no part, so it meets the premise of every clause. -/
theorem witness_EachPartHasItsWriters :
    (∃ t, exec .getq (one 256) = .next t) ∧ (∀ imm, Instr.getq ≠ .setq imm) ∧
    (∀ start data, Instr.getq ≠ .fill start data) ∧ Instr.getq ≠ .copyx ∧
    (∀ data, Instr.getq ≠ .showData data) ∧
    (∀ r g b offsets, Instr.getq ≠ .setmap r g b offsets) ∧ Instr.getq ≠ .prep ∧ Instr.getq ≠ .sendb :=
  ⟨⟨_, rfl⟩, fun _ => nofun, fun _ _ => nofun, nofun, fun _ => nofun, fun _ _ _ _ => nofun, nofun, nofun⟩

theorem witness_OnlyCopyxStops : exec .copyx (one 256) = .fault .externalBounds := rfl

/-- COPYX for the clause on writing, SENDB for the clause on reading. -/
theorem witness_OnlyCopyxReadsExternalBuffer :
    (∃ t, exec .copyx mapped = .next t) ∧ Instr.sendb ≠ .copyx ∧
    ∃ t, exec .sendb (one 256) = .next t := ⟨⟨_, rfl⟩, nofun, ⟨_, rfl⟩⟩

theorem witness_LogsOnlyGrow : ∃ t, step waiting = .next t := ⟨_, rfl⟩

theorem waiting_inv : waiting.Inv where
  ledCount := by decide
  memory := by decide
  transmitBuffer := by decide
  frames := by
    intro e he
    have he : e = ⟨allOffFrame 1, .ok⟩ := by simpa [waiting, one, chain, State.afterReset] using he
    subst he
    exact ⟨rfl, by decide⟩
  firstFrame := rfl
  responses := by intro r hr; exact absurd hr (by simp [waiting, one, chain, State.afterReset])
  mapChannels := by intro _; decide
  mapOrder := by
    intro m hm
    rcases m with _ | _ | _ | _ | m
    · decide
    · decide
    · decide
    · exact absurd rfl hm
    · exact absurd (by simp [State.readBm, waiting]) hm

/-- A state that meets the invariant, with part of its map written, and a step from it. -/
theorem witness_StepKeepsTheInvariant : waiting.Inv ∧ ∃ t, step waiting = .next t :=
  ⟨waiting_inv, ⟨_, rfl⟩⟩

/-- A run of one step on a chain of one LED, whose SHOW the transport fails. -/
theorem witness_ReachableStatesMeetTheInvariant :
    ∃ s t, Reachable s ∧ step s = .next t ∧ Reachable t ∧ t.rsplog = [0x10000000] := by
  have hr := Reachable.reset 1 256 (State.afterReset 1 256) [.command [0x08000000, 0] []] [.fail]
    (by decide) (by rfl)
  exact ⟨_, _, hr, rfl, .step _ _ hr rfl, by decide +kernel⟩

theorem witness_ConstructionLeavesTheResetState : 1 ≤ 1 ∧ 1 ≤ 2 ^ 24 - 1 := by decide

theorem witness_ConstructionRefusesNoLeds : (0 : Int) ≤ 0 ∧ (-1 : Int) ≤ 0 := by decide

theorem witness_ConstructionFailsWithItsTransmission : 1 ≤ 1 := by decide

/-- Each clause at its bounds, where the clauses that meet agree. -/
theorem witness_QuantiseRoundsTheClampedRequest :
    (1 : Rat) ≤ 1 ∧ (0 : Rat) ≤ 0 ∧ (0 : Rat) ≤ 1 / 2 ∧ (1 / 2 : Rat) ≤ 1 ∧
    quantise .halfToEven (.finite 1) = some 256 ∧ quantise .halfAwayFromZero (.finite 0) = some 0 := by
  decide +kernel

/-- Ties at both ends; for the second clause 1/4, and 513/512, half way between two steps above 1. -/
theorem witness_TiesDecideOnlyTies :
    0 < 256 ∧ 255 < 256 ∧ (∀ k : Nat, k < 256 → (1 / 4 : Rat) * 256 ≠ k + 1 / 2) ∧
    ∀ k : Nat, k < 256 → (513 / 512 : Rat) * 256 ≠ k + 1 / 2 := by
  refine ⟨by decide, by decide, ?_, ?_⟩
  · intro k _ h
    have h2 : (127 : Rat) = 2 * k := by linarith
    have h3 : 127 = 2 * k := by exact_mod_cast h2
    omega
  · intro k hk h
    have h2 : (256 : Rat) = k := by linarith
    have h3 : 256 = k := by exact_mod_cast h2
    omega

theorem witness_SetIntensityStoresTheQuantised :
    setIntensity .halfToEven (.finite (1 / 10)) = some (.setq 26) ∧
    setIntensity .halfToEven .posInf = some (.setq 256) ∧ setIntensity .halfToEven .nan = none := by
  decide +kernel

/-- A command on the longest chain the port drives and on one LED more, and a FILL whose `start` is the
last index. -/
theorem witness_PortBoundsTheChain :
    let s : State := { one 256 with inbox := issue (.fill 16777215 [⟨1, 2, 3⟩]) [] :: [] }
    waiting.inbox = .command [0x02000000] [] :: [] ∧
    2 ^ 24 - 1 < ({ waiting with n := 2 ^ 24 } : State).n ∧
    (stepped { waiting with n := 2 ^ 24 - 1 }).isSome = true ∧
    ([⟨1, 2, 3⟩] : List Triple).length < 2 ^ 32 ∧ 1 ≤ s.n ∧ s.n ≤ 2 ^ 24 - 1 ∧
    s.inbox = issue (.fill 16777215 [⟨1, 2, 3⟩]) [] :: [] :=
  ⟨rfl, by decide, by decide +kernel, by decide, by decide, by decide, rfl⟩

end Sys2Proof.Tests
end

section
/-! SUPPORT. Facts about the operations and about `exec` that the statements on steps share: which
responses are legal, that N is fixed, that no instruction is refused, and what a step does with a command. -/

namespace Sys2Proof.Machine

/-! ### Responses (30_encoding.md R64) -/

/-- A state that has answered one word more than `s` responds with that word's status and value. -/
theorem responds_of_rsplog {s t : State} {status : BitVec 4} {value : BitVec 24}
    (h : t.rsplog = s.rsplog ++ [responseWord status value]) : Responds status value.toNat s t :=
  ⟨_, h, by simp, by simp, by simp⟩

/-- A response with status OK is legal whatever its value. -/
theorem legalResponse_ok (value : BitVec 24) : LegalResponse (responseWord statusOk value) :=
  ⟨by simp, .inl (by simp [statusOk])⟩

/-- An error's response carries value zero, so it is legal. -/
theorem legalResponse_error (e : CommandError) : LegalResponse (responseWord e.status 0) :=
  ⟨by simp, .inr ⟨by cases e <;> simp [CommandError.status], by simp⟩⟩

/-! ### What every instruction keeps -/

@[simp] theorem encodeAndTransmit_n (s : State) : (encodeAndTransmit s).n = s.n := by
  simp [encodeAndTransmit]

/-- No instruction writes N (10_state.md R11). -/
theorem exec_keeps_n {i : Instr} {s t : State} (h : exec i s = .next t) : t.n = s.n := by
  cases i with
  | copyx =>
    obtain ⟨wb, -, rfl⟩ := exec_copyx_next h
    simp
  | sendb => cases h; simp
  | showData data => cases h; simp
  | _ => cases h; rfl

/-- Every instruction has a meaning: `exec` refuses none. -/
theorem exec_ne_refused (i : Instr) (s : State) (r : Refusal) : exec i s ≠ .refused r := by
  cases i with
  | copyx =>
    simp only [exec, execCopyx]
    split <;> exact nofun
  | _ => exact nofun

/-! ### What a step does with a command (00_scope.md R9, 60_exceptions.md R127) -/

section
variable {s : State} {words : List Word} {ext : List Byte} {rest : List HostInput}

/-- Words that are no legal command are rejected on a chain the port drives (30_encoding.md R65). -/
theorem step_illegal {e : DecodeError} (hi : s.inbox = .command words ext :: rest)
    (hp : portDrives s.n = true) (hd : decodeCommand words = .error e) :
    step s = .next (rejectCommand (beginCommand ext rest s)) := by
  simp only [step, hi, hp, hd, if_true]

/-- A command is refused at the port exactly where the port does not drive the chain. -/
theorem step_refused_beyondPort_iff (hi : s.inbox = .command words ext :: rest) :
    step s = .refused .beyondPort ↔ portDrives s.n = false := by
  constructor
  · intro h
    by_contra hp
    rw [Bool.not_eq_false] at hp
    cases hd : decodeCommand words with
    | ok i => exact exec_ne_refused i _ _ ((step_command hi hp hd).symm.trans h)
    | error e => cases (step_illegal hi hp hd).symm.trans h
  · intro hp
    simp [step, hi, hp]

/-- A command that gives a next state found a chain the port drives. -/
theorem portDrives_of_step_command {t : State} (hi : s.inbox = .command words ext :: rest)
    (h : step s = .next t) : portDrives s.n = true := by
  by_contra hp
  rw [Bool.not_eq_true, ← step_refused_beyondPort_iff hi, h] at hp
  cases hp

end

/-- No step changes N (R11). -/
theorem step_keeps_n {s t : State} (h : step s = .next t) : t.n = s.n := by
  obtain ⟨-, rfl⟩ | ⟨_, _, _, _, -, -, -, he⟩ | ⟨_, _, _, _, -, -, -, rfl⟩ | ⟨_, _, _, -, -, he⟩ :=
    step_cases h
  · rfl
  · simpa using exec_keeps_n he
  · rfl
  · simpa using exec_keeps_n he

end Sys2Proof.Machine
end

section
/-! SUPPORT. The invariant of the block is kept: one lemma for each operation on the state, then `exec`,
then `step`. -/

namespace Sys2Proof.Machine

variable {s : State}

/-! ### Updates of parts the invariant does not speak of -/

theorem setQ_keeps_inv (h : s.Inv) (q : Intensity) : (s.setQ q).Inv := { h with }

theorem setWire_keeps_inv (h : s.Inv) (w : WireDecoder) : (s.setWire w).Inv := { h with }

theorem beginCommand_keeps_inv (h : s.Inv) (ext : List Byte) (rest : List HostInput) :
    (beginCommand ext rest s).Inv := { h with }

theorem beginWireByte_keeps_inv (h : s.Inv) (rest : List HostInput) :
    (beginWireByte rest s).Inv := { h with }

/-! ### Responses, the work buffer and the encode pass -/

theorem respond_keeps_inv (h : s.Inv) {status : BitVec 4} {value : BitVec 24}
    (hl : LegalResponse (responseWord status value)) : (respond status value s).Inv :=
  { h with
    responses := by
      simp only [respond_rsplog, List.forall_mem_append, List.forall_mem_singleton]
      exact ⟨h.responses, hl⟩ }

theorem raise_keeps_inv (h : s.Inv) (e : CommandError) : (raise e s).Inv :=
  respond_keeps_inv h (legalResponse_error e)

theorem conclude_keeps_inv (h : s.Inv) (o : TransportOutcome) : (conclude o s).Inv := by
  cases o with
  | ok => exact respond_keeps_inv h (legalResponse_ok 0)
  | fail => exact raise_keeps_inv h .transportError

theorem setWb_keeps_inv (h : s.Inv) {wb : List Byte} (hl : wb.length = 3 * s.n) :
    (s.setWb wb).Inv :=
  { h with
    memory := by
      obtain ⟨-, htb, hbm⟩ := (Memory.wf_iff s).mp h.memory
      exact (Memory.wf_iff _).mpr ⟨hl, htb, hbm⟩ }

theorem fillBuffer_keeps_inv (h : s.Inv) (start : Nat) (data : List Triple) :
    (s.setWb (fillBuffer s.n start data s.wb)).Inv := by
  obtain ⟨hwb, -, -⟩ := (Memory.wf_iff s).mp h.memory
  exact setWb_keeps_inv h (by simpa using hwb)

theorem encodePass_keeps_inv (h : s.Inv) : (encodePass s).Inv :=
  { h with
    memory := by
      obtain ⟨hwb, -, hbm⟩ := (Memory.wf_iff s).mp h.memory
      refine (Memory.wf_iff _).mpr ⟨hwb, ?_, hbm⟩
      rw [encodePass_tb, encodePass_n, encodeBytes_length, hwb]
      omega
    transmitBuffer := encodeBytes_codeWords s.wb s.q }

/-! ### Transmission -/

/-- Where the invariant holds, TB is a frame of this chain (30_encoding.md R57). -/
theorem legalFrame_tb (h : s.Inv) : LegalFrame s.n s.tb := by
  obtain ⟨-, htb, -⟩ := (Memory.wf_iff s).mp h.memory
  exact ⟨htb, h.transmitBuffer⟩

theorem transmit_keeps_inv (h : s.Inv) : (transmit s).Inv :=
  { h with
    frames := by
      simp only [transmit_txlog, transmit_n, List.forall_mem_append, List.forall_mem_singleton]
      exact ⟨h.frames, legalFrame_tb h⟩
    firstFrame := by
      rw [transmit_txlog, List.head?_append, h.firstFrame]
      rfl }

theorem encodeAndTransmit_keeps_inv (h : s.Inv) : (encodeAndTransmit s).Inv :=
  conclude_keeps_inv (transmit_keeps_inv (encodePass_keeps_inv h)) _

/-! ### The buffer map (43_buffer_map.md R100, R101) -/

section
variable (r g b : Offset) (offsets : List Offset)

/-- SETMAP gives a value to each of the channel offsets and to the bases it loads. -/
theorem readBm_mapBuffer_written (hw : Memory.wf s = true) {m : Nat}
    (hm : m < 3 + min s.n offsets.length) :
    (s.setBm (mapBuffer s.n r g b offsets s.bm)).readBm m ≠ none := by
  obtain ⟨-, -, hbm⟩ := (Memory.wf_iff s).mp hw
  have hlen : m < ((r :: g :: b :: offsets.take s.n).map some).length := by simp; omega
  have := storeAt_inside s.bm 0 _ m hlen (by omega)
  rw [Nat.zero_add] at this
  rw [State.readBm, setBm_bm, mapBuffer, this, List.getElem?_eq_getElem hlen, List.getElem_map]
  exact Option.some_ne_none _

/-- What lies past the bases SETMAP loads keeps what it held. -/
theorem readBm_mapBuffer_kept {m : Nat} (hm : 3 + min s.n offsets.length ≤ m) :
    (s.setBm (mapBuffer s.n r g b offsets s.bm)).readBm m = s.readBm m := by
  rw [State.readBm, setBm_bm, mapBuffer, storeAt_outside _ _ _ _ (.inr (by simp; omega)),
    State.readBm]

theorem mapBuffer_keeps_inv (h : s.Inv) :
    (s.setBm (mapBuffer s.n r g b offsets s.bm)).Inv :=
  { h with
    memory := by
      obtain ⟨hwb, htb, hbm⟩ := (Memory.wf_iff s).mp h.memory
      exact (Memory.wf_iff _).mpr ⟨hwb, htb, by simpa using hbm⟩
    mapChannels := fun _ => readBm_mapBuffer_written r g b offsets h.memory (by omega)
    mapOrder := by
      intro m hm
      by_cases hlt : m < 3 + min s.n offsets.length
      · exact readBm_mapBuffer_written r g b offsets h.memory hlt
      · rw [readBm_mapBuffer_kept r g b offsets (by omega)] at hm ⊢
        exact h.mapOrder m hm }

end

/-! ### Instructions and steps -/

/-- Every instruction keeps the invariant. -/
theorem exec_keeps_inv {i : Instr} {t : State} (h : s.Inv) (he : exec i s = .next t) : t.Inv := by
  cases i with
  | setq imm => cases he; exact respond_keeps_inv (setQ_keeps_inv h _) (legalResponse_ok 0)
  | getq => cases he; exact respond_keeps_inv h (legalResponse_ok _)
  | fill start data =>
    cases he; exact respond_keeps_inv (fillBuffer_keeps_inv h _ data) (legalResponse_ok _)
  | setmap r g b offsets =>
    cases he; exact respond_keeps_inv (mapBuffer_keeps_inv r g b offsets h) (legalResponse_ok 0)
  | copyx =>
    obtain ⟨wb, hwb, rfl⟩ := exec_copyx_next he
    exact respond_keeps_inv (setWb_keeps_inv h (readLeds_length hwb)) (legalResponse_ok 0)
  | prep => cases he; exact respond_keeps_inv (encodePass_keeps_inv h) (legalResponse_ok 0)
  | sendb => cases he; exact encodeAndTransmit_keeps_inv h
  | showData data => cases he; exact encodeAndTransmit_keeps_inv (fillBuffer_keeps_inv h 0 data)
  | txb0 a b => cases he; exact setWire_keeps_inv h _
  | txb1 a b => cases he; exact setWire_keeps_inv h _
  | txb2 a b => cases he; exact setWire_keeps_inv h _
  | txb3 a b => cases he; exact setWire_keeps_inv h _

/-- Every step keeps the invariant. -/
theorem step_keeps_inv {t : State} (h : s.Inv) (hs : step s = .next t) : t.Inv := by
  obtain ⟨-, rfl⟩ | ⟨_, ext, rest, _, -, -, -, he⟩ | ⟨_, ext, rest, _, -, -, -, rfl⟩ |
    ⟨_, rest, _, -, -, he⟩ := step_cases hs
  · exact h
  · exact exec_keeps_inv (beginCommand_keeps_inv h ext rest) he
  · exact raise_keeps_inv (beginCommand_keeps_inv h ext rest) .illegalCommand
  · exact exec_keeps_inv (beginWireByte_keeps_inv h rest) he

end Sys2Proof.Machine
end

section
/-! SUPPORT. FILL as the host issues it: the decoder reads it back, and its index fits the response. -/

namespace Sys2Proof.Machine

/-- The words of a FILL with an encoding decode to it (30_encoding.md R61, R62). -/
theorem decodeCommand_fill (start : BitVec 24) {data : List Triple} (h : countFits data = true) :
    decodeCommand (headerWord 0x03 start :: countWord data :: data.map tripleWord) =
      .ok (.fill start data) := by
  simp [decodeCommand, decodeFill, decodeCounted, countWord_toNat h,
    decodeAll_map decodeTriple_tripleWord, Except.map]

/-- The index FILL returns is a `start` or at most N, so it fits 24 bits on a chain the port drives
(00_scope.md R9). -/
theorem fillEnd_lt (start : BitVec 24) (data : List Triple) {n : Nat} (hn : n < 2 ^ 24) :
    fillEnd n start.toNat data < 2 ^ 24 := by
  have := start.isLt
  unfold fillEnd fillCount
  omega

/-- A FILL the host issues on a chain the port drives answers OK with the returned index, not reduced
(42_workbuffer_fill.md R92, R94). -/
theorem step_issue_fill {s : State} {start : BitVec 24} {data : List Triple} {ext : List Byte}
    {rest : List HostInput} (hd : countFits data = true) (hp : portDrives s.n = true)
    (hi : s.inbox = issue (.fill start data) ext :: rest) :
    ∃ t, step s = .next t ∧ Responds 0 (fillEnd s.n start.toNat data) s t := by
  refine ⟨_, step_command hi hp (decodeCommand_fill start hd), ?_⟩
  have hn : s.n < 2 ^ 24 := by
    obtain ⟨-, hn⟩ := (portDrives_iff _).mp hp
    omega
  have hvalue : (BitVec.ofNat 24 (fillEnd s.n start.toNat data)).toNat =
      fillEnd s.n start.toNat data := by
    rw [BitVec.toNat_ofNat, Nat.mod_eq_of_lt (fillEnd_lt start data hn)]
  rw [← hvalue]
  exact responds_of_rsplog rfl

end Sys2Proof.Machine
end

section
/-! SUPPORT. The two treatments of ties in the host's `quantise` (00_scope.md R7, 40_scaler.md R75). -/

namespace Sys2Proof.Machine

/-- The floor of a number half way between two integers. -/
theorem floor_add_half (k : Int) : ((k : Rat) + 1 / 2).floor = k :=
  (Int.floor_eq_iff (a := (k : Rat) + 1 / 2)).mpr ⟨by linarith, by linarith⟩

/-- At a tie one treatment rounds up and the other to the even neighbour. -/
theorem roundRat_add_half (ties : RoundTies) (k : Int) :
    roundRat ties ((k : Rat) + 1 / 2) =
      match ties with
      | .halfAwayFromZero => k + 1
      | .halfToEven => k + k % 2 := by
  simp only [roundRat, floor_add_half, add_sub_cancel_left, lt_irrefl, if_false]
  cases ties with
  | halfAwayFromZero => rfl
  | halfToEven => dsimp only; split <;> omega

/-- Away from the ties the treatment of ties plays no part. -/
theorem roundRat_eq_of_not_tie {x : Rat} (h : ∀ k : Int, x ≠ k + 1 / 2) (ties ties' : RoundTies) :
    roundRat ties x = roundRat ties' x := by
  have hrest : x - x.floor < 1 / 2 ∨ 1 / 2 < x - x.floor :=
    lt_or_gt_of_ne fun he => h x.floor (by linarith)
  simp only [roundRat]
  obtain hlt | hgt := hrest
  · simp only [hlt, if_true]
  · simp only [not_lt_of_gt hgt, hgt, if_true, if_false]

/-- The clamp acts on no request between 0 and 1. -/
theorem clampUnit_of_mem {f : Rat} (h0 : 0 ≤ f) (h1 : f ≤ 1) : clampUnit f = f := by
  rw [clampUnit, min_eq_right h1, max_eq_right h0]

theorem clampUnit_of_le_zero {f : Rat} (h : f ≤ 0) : clampUnit f = 0 :=
  max_eq_left ((min_le_right 1 f).trans h)

theorem clampUnit_of_one_le {f : Rat} (h : 1 ≤ f) : clampUnit f = 1 := by
  rw [clampUnit, min_eq_left h, max_eq_right zero_le_one]

/-- No integer is a tie. -/
theorem intCast_ne_add_half (m k : Int) : (m : Rat) ≠ k + 1 / 2 := by
  intro h
  have h2 : (2 : Rat) * m = 2 * k + 1 := by linarith
  have h2 : 2 * m = 2 * k + 1 := by exact_mod_cast h2
  omega

/-- A clamped request that is a tie is the request itself and one of the 256: at the ends of the
clamped range, 0 and 256, there is no tie. -/
theorem tie_of_clampUnit_tie {f : Rat} {k : Int} (h : clampUnit f * 256 = k + 1 / 2) :
    f * 256 = k + 1 / 2 ∧ 0 ≤ k ∧ k < 256 := by
  rcases le_or_gt f 0 with h0 | h0
  · rw [clampUnit_of_le_zero h0] at h
    exact absurd h (by simpa using intCast_ne_add_half 0 k)
  rcases le_or_gt 1 f with h1 | h1
  · rw [clampUnit_of_one_le h1] at h
    exact absurd h (by simpa using intCast_ne_add_half 256 k)
  rw [clampUnit_of_mem h0.le h1.le] at h
  have hk0 : ((-1 : Int) : Rat) < k := by push_cast; linarith
  have hk1 : (k : Rat) < (256 : Int) := by push_cast; linarith
  exact ⟨h, Int.cast_lt.mp hk0, Int.cast_lt.mp hk1⟩

end Sys2Proof.Machine
end

section
/-! The statements on the scope of the block (00_scope.md). -/

open Sys2Proof Sys2Proof.Machine

/-- Settles O43: an instruction is put together from operations that each keep the invariant, and a step
runs an instruction or rejects a command. -/
theorem stepKeepsTheInvariant : Obligations.StepKeepsTheInvariant :=
  fun _ _ h hs => step_keeps_inv h hs

/-- Settles O50: a request is a tie after the clamp only where it was one of the 256 before it. -/
theorem tiesDecideOnlyTies : Obligations.TiesDecideOnlyTies := by
  refine ⟨fun k hk => ?_, fun f hf => ?_⟩
  · have hk' : (k : Rat) ≤ 255 := by exact_mod_cast Nat.le_of_lt_succ hk
    have hclamp : clampUnit ((k + 1 / 2) / 256) * 256 = ((k : Int) : Rat) + 1 / 2 := by
      rw [clampUnit_of_mem (by positivity) (by linarith), Int.cast_natCast]
      ring
    constructor
    · simp only [quantise, hclamp, roundRat_add_half]
      norm_cast
    · simp only [quantise, hclamp, roundRat_add_half]
      norm_cast
  · have hround : ∀ k : Int, clampUnit f * 256 ≠ k + 1 / 2 := by
      intro k htie
      obtain ⟨hfk, h0, h1⟩ := tie_of_clampUnit_tie htie
      lift k to Nat using h0
      exact hf k (by exact_mod_cast h1) (by exact_mod_cast hfk)
    simp only [quantise, roundRat_eq_of_not_tie hround .halfToEven .halfAwayFromZero]

/-- Settles O52: the port's check decides before the decoder, no instruction is refused after it, and a
step keeps N. -/
theorem portBoundsTheChain : Obligations.PortBoundsTheChain := by
  refine ⟨fun s words ext rest hi => ⟨?_, fun t h => ?_⟩, fun s start data ext rest hd h1 h2 hi => ?_⟩
  · rw [step_refused_beyondPort_iff hi, ← Bool.not_eq_true, portDrives_iff]
    omega
  · rw [step_keeps_n h, ← portDrives_iff]
    exact portDrives_of_step_command hi h
  · exact step_issue_fill (by simpa [countFits] using hd) ((portDrives_iff _).mpr ⟨h1, h2⟩) hi

/-- Settles O21: the transmission of SENDB takes the head of the listed answers, PREP transmits
nothing. -/
theorem drawsAreTakenInOrder : Obligations.DrawsAreTakenInOrder := by
  intro s outcome rest h
  refine ⟨⟨_, rfl, ?_, ?_⟩, ⟨_, rfl, ?_⟩⟩
  · simp [encodeAndTransmit, h]
  · simp [encodeAndTransmit, nextOutcome_of_draws h]
  · simp [h]

end

section
/-! SUPPORT. The state's parts and records under construction, instructions and steps (10_state.md R10, R17,
R18): which instruction writes which part, what a step appends, and that it keeps the sizes. -/

namespace Sys2Proof.Machine

/-! ### Construction (70_reset_and_hazards.md R141) -/

/-- A construction that leaves a block has encoded and transmitted the allocated one. -/
theorem construct_ok {ledCount : Int} {q0 : Intensity} {draw : TransportOutcome} {s : State}
    (h : (construct ledCount q0 draw).result = .ok s) :
    s = transmit (encodePass (allocated ledCount.toNat q0 draw)) := by
  unfold construct at h
  split at h
  · cases h
  · dsimp only at h
    split at h <;> cases h
    rfl

/-- The block is allocated with the sizes of R18, and the reset sequence keeps them. -/
theorem construct_memory_wf {ledCount : Int} {q0 : Intensity} {draw : TransportOutcome} {s : State}
    (h : (construct ledCount q0 draw).result = .ok s) : Memory.wf s = true := by
  obtain rfl := construct_ok h
  rw [Memory.wf_iff]
  simp [allocated]
  omega

/-! ### Encode and transmit -/

section
variable (s : State)

@[simp] theorem encodeAndTransmit_q : (encodeAndTransmit s).q = s.q := by
  simp [encodeAndTransmit]

@[simp] theorem encodeAndTransmit_wb : (encodeAndTransmit s).wb = s.wb := by
  simp [encodeAndTransmit]

@[simp] theorem encodeAndTransmit_bm : (encodeAndTransmit s).bm = s.bm := by
  simp [encodeAndTransmit]

@[simp] theorem encodeAndTransmit_txlog :
    (encodeAndTransmit s).txlog = s.txlog ++ [⟨encodeBytes s.wb s.q, nextOutcome s⟩] := by
  simp [encodeAndTransmit]

@[simp] theorem encodeAndTransmit_rsplog :
    (encodeAndTransmit s).rsplog =
      s.rsplog ++ [responseWord (outcomeStatus (nextOutcome s)) 0] := by
  simp [encodeAndTransmit]

end

/-! ### The writers of each part (R10) -/

section
variable {i : Instr} {s t : State}

theorem exec_keeps_q (h : exec i s = .next t) (hsetq : ∀ imm, i ≠ .setq imm) : t.q = s.q := by
  cases i with
  | setq imm => exact absurd rfl (hsetq imm)
  | copyx => obtain ⟨wb, -, rfl⟩ := exec_copyx_next h; rfl
  | sendb => cases h; simp
  | showData data => cases h; simp
  | _ => cases h; rfl

theorem exec_keeps_wb (h : exec i s = .next t) (hfill : ∀ start data, i ≠ .fill start data)
    (hcopyx : i ≠ .copyx) (hshow : ∀ data, i ≠ .showData data) : t.wb = s.wb := by
  cases i with
  | fill start data => exact absurd rfl (hfill start data)
  | copyx => exact absurd rfl hcopyx
  | showData data => exact absurd rfl (hshow data)
  | sendb => cases h; simp
  | _ => cases h; rfl

theorem exec_keeps_bm (h : exec i s = .next t)
    (hsetmap : ∀ r g b offsets, i ≠ .setmap r g b offsets) : t.bm = s.bm := by
  cases i with
  | setmap r g b offsets => exact absurd rfl (hsetmap r g b offsets)
  | copyx => obtain ⟨wb, -, rfl⟩ := exec_copyx_next h; rfl
  | sendb => cases h; simp
  | showData data => cases h; simp
  | _ => cases h; rfl

theorem exec_keeps_tb (h : exec i s = .next t) (hprep : i ≠ .prep) (hsendb : i ≠ .sendb)
    (hshow : ∀ data, i ≠ .showData data) : t.tb = s.tb := by
  cases i with
  | prep => exact absurd rfl hprep
  | sendb => exact absurd rfl hsendb
  | showData data => exact absurd rfl (hshow data)
  | copyx => obtain ⟨wb, -, rfl⟩ := exec_copyx_next h; rfl
  | _ => cases h; rfl

/-- An instruction that does not transmit leaves the transport's record and its answers alone (R17). -/
theorem exec_keeps_txlog_draws (h : exec i s = .next t) (hsendb : i ≠ .sendb)
    (hshow : ∀ data, i ≠ .showData data) : t.txlog = s.txlog ∧ t.draws = s.draws := by
  cases i with
  | sendb => exact absurd rfl hsendb
  | showData data => exact absurd rfl (hshow data)
  | copyx => obtain ⟨wb, -, rfl⟩ := exec_copyx_next h; exact ⟨rfl, rfl⟩
  | _ => cases h; exact ⟨rfl, rfl⟩

/-! ### The records only grow (R17, 70_reset_and_hazards.md R160) -/

theorem exec_appends_txlog (h : exec i s = .next t) : ∃ more, t.txlog = s.txlog ++ more := by
  cases i with
  | sendb => cases h; exact ⟨_, encodeAndTransmit_txlog s⟩
  | showData data => cases h; exact ⟨_, encodeAndTransmit_txlog _⟩
  | _ => exact ⟨[], by simp [exec_keeps_txlog_draws h nofun nofun]⟩

/-- A host command appends its response, a transmit byte nothing. -/
theorem exec_appends_rsplog (h : exec i s = .next t) : ∃ more, t.rsplog = s.rsplog ++ more := by
  cases i with
  | copyx => obtain ⟨wb, -, rfl⟩ := exec_copyx_next h; exact ⟨_, rfl⟩
  | sendb => cases h; exact ⟨_, encodeAndTransmit_rsplog s⟩
  | showData data => cases h; exact ⟨_, encodeAndTransmit_rsplog _⟩
  | txb0 a b => cases h; exact ⟨[], s.rsplog.append_nil.symm⟩
  | txb1 a b => cases h; exact ⟨[], s.rsplog.append_nil.symm⟩
  | txb2 a b => cases h; exact ⟨[], s.rsplog.append_nil.symm⟩
  | txb3 a b => cases h; exact ⟨[], s.rsplog.append_nil.symm⟩
  | _ => cases h; exact ⟨_, rfl⟩

/-- Taking an input from the inbox leaves the records alone, so a step appends what its instruction or the
rejection of its command does. -/
theorem step_appends_logs (h : step s = .next t) :
    (∃ more, t.txlog = s.txlog ++ more) ∧ (∃ more, t.rsplog = s.rsplog ++ more) := by
  obtain ⟨-, rfl⟩ | ⟨_, _, _, _, -, -, -, he⟩ | ⟨_, _, _, _, -, -, -, rfl⟩ | ⟨_, _, _, -, -, he⟩ :=
    step_cases h
  · exact ⟨⟨[], t.txlog.append_nil.symm⟩, ⟨[], t.rsplog.append_nil.symm⟩⟩
  · exact ⟨by simpa using exec_appends_txlog he, by simpa using exec_appends_rsplog he⟩
  · exact ⟨⟨[], s.txlog.append_nil.symm⟩, ⟨_, rfl⟩⟩
  · exact ⟨by simpa using exec_appends_txlog he, by simpa using exec_appends_rsplog he⟩

/-! ### The sizes of the spaces (R18) -/

/-- The canonical form of the memory, with the size of TB measured by WB. -/
theorem Memory.wf_iff_tb_of_wb (s : State) :
    Memory.wf s = true ↔
      s.wb.length = 3 * s.n ∧ s.tb.length = 4 * s.wb.length ∧ s.bm.length = 3 + s.n := by
  rw [Memory.wf_iff]
  omega

/-- Every step keeps the canonical form of the memory. -/
theorem step_keeps_memory_wf (hw : Memory.wf s = true) (h : step s = .next t) :
    Memory.wf t = true := by
  obtain ⟨-, rfl⟩ | ⟨_, ext, rest, _, -, -, -, he⟩ | ⟨_, _, _, _, -, -, -, rfl⟩ |
    ⟨_, rest, _, -, -, he⟩ := step_cases h
  · exact hw
  · exact exec_keeps_memory_wf (s := beginCommand ext rest s) hw he
  · exact hw
  · exact exec_keeps_memory_wf (s := beginWireByte rest s) hw he

end

end Sys2Proof.Machine
end

section
/-! The statements on the state (10_state.md). -/

open Sys2Proof Sys2Proof.Machine

/-- Settles O38: the sizes are the canonical form of the memory, which construction establishes and every
step keeps, and N is fixed. -/
theorem buffersKeepTheirSizes : Obligations.BuffersKeepTheirSizes := by
  refine ⟨fun _ _ _ s h => (Memory.wf_iff_tb_of_wb s).mp (construct_memory_wf h), ?_⟩
  intro s t hwb htb hbm h
  have hn : t.n = s.n := step_keeps_n h
  have hw : Memory.wf t = true :=
    step_keeps_memory_wf ((Memory.wf_iff_tb_of_wb s).mpr ⟨hwb, htb, hbm⟩) h
  obtain ⟨hwb', htb', hbm'⟩ := (Memory.wf_iff_tb_of_wb t).mp hw
  exact ⟨by omega, by omega, by omega, hwb', htb', hbm'⟩

/-- Settles O37: construction stores the N it is given, and no instruction and no step writes it. -/
theorem ledCountIsFixed : Obligations.LedCountIsFixed := by
  refine ⟨fun n q0 s _ h => ?_, fun _ _ _ => exec_keeps_n, fun _ _ => step_keeps_n⟩
  obtain rfl := construct_ok h
  rfl

/-- Settles O39: one lemma for each part of the block. -/
theorem eachPartHasItsWriters : Obligations.EachPartHasItsWriters :=
  fun _ _ _ h => ⟨exec_keeps_q h, exec_keeps_wb h, exec_keeps_bm h, exec_keeps_tb h,
    exec_keeps_txlog_draws h⟩

/-- Settles O42: an instruction and the rejection of a command only append to the records. -/
theorem logsOnlyGrow : Obligations.LogsOnlyGrow :=
  fun _ _ => step_appends_logs

end

section
/-! SUPPORT. The transmit buffer and the external buffer under instructions (20_memory.md R30, R34, R45):
the payload bits of a group, what a pass leaves in TB, and that EXT is kept and plays no part but in COPYX. -/

namespace Sys2Proof.Machine

/-! ### Payload bits of a transmit byte (R35) -/

theorem txByte_getLsbD_five (a b : Bool) : (txByte a b).getLsbD 5 = a := txByte_bit5 a b

theorem txByte_getLsbD_one (a b : Bool) : (txByte a b).getLsbD 1 = b := txByte_bit1 a b

/-! ### What a pass leaves in TB (R45) -/

@[simp] theorem encodeAndTransmit_tb (s : State) :
    (encodeAndTransmit s).tb = encodeBytes s.wb s.q := by
  simp [encodeAndTransmit]

/-- Each instruction with an encode pass leaves TB as the encoding of the WB and Q it leaves: nothing
after the pass writes any of the three. -/
theorem exec_encodes_tb {i : Instr} {s t : State} (h : exec i s = .next t)
    (hi : i = .prep ∨ i = .sendb ∨ ∃ data, i = .showData data) : t.tb = encodeBytes t.wb t.q := by
  obtain rfl | rfl | ⟨data, rfl⟩ := hi
  · cases h; simp
  · cases h; simp
  · cases h; simp

/-! ### The external buffer (R30, 00_scope.md R5) -/

@[simp] theorem encodeAndTransmit_ext (s : State) : (encodeAndTransmit s).ext = s.ext := by
  simp [encodeAndTransmit]

/-- No instruction writes EXT. -/
theorem exec_keeps_ext {i : Instr} {s t : State} (h : exec i s = .next t) : t.ext = s.ext := by
  cases i with
  | copyx => obtain ⟨wb, -, rfl⟩ := exec_copyx_next h; rfl
  | sendb => cases h; simp
  | showData data => cases h; simp
  | _ => cases h; rfl

/-- The end of a transmitting command neither reads nor writes EXT. -/
theorem conclude_commutes_ext (o : TransportOutcome) (s : State) (ext : List Byte) :
    conclude o { s with ext := ext } = { conclude o s with ext := ext } := by
  cases o <;> rfl

/-- Encoding and transmitting reads no EXT: the transport's answer hangs on the listed answers and the
frames sent before. -/
theorem encodeAndTransmit_commutes_ext (s : State) (ext : List Byte) :
    encodeAndTransmit { s with ext := ext } = { encodeAndTransmit s with ext := ext } :=
  conclude_commutes_ext (nextOutcome s) (transmit (encodePass s)) ext

/-- An instruction other than COPYX does with any other external buffer the same. -/
theorem exec_commutes_ext {i : Instr} {s t : State} (h : exec i s = .next t) (hcopyx : i ≠ .copyx)
    (ext : List Byte) : exec i { s with ext := ext } = .next { t with ext := ext } := by
  cases i with
  | copyx => exact absurd rfl hcopyx
  | sendb => cases h; exact congrArg _ (encodeAndTransmit_commutes_ext s ext)
  | showData data =>
    cases h
    exact congrArg _ (encodeAndTransmit_commutes_ext (s.setWb (fillBuffer s.n 0 data s.wb)) ext)
  | _ => cases h; rfl

end Sys2Proof.Machine
end

section
/-! The statements on the memory spaces (20_memory.md). -/

open Sys2Proof Sys2Proof.Machine

/-- Settles O26: the writers of TB and TXLOG are the instructions with an encode pass, and the pass leaves
its encoding. -/
theorem changesShowOnlyAtTheNextPass : Obligations.ChangesShowOnlyAtTheNextPass := by
  refine ⟨fun i s t h hi => ?_, fun _ _ _ => exec_encodes_tb⟩
  obtain ⟨hprep, hsendb, hshow⟩ := hi
  exact ⟨exec_keeps_tb h hprep hsendb hshow, (exec_keeps_txlog_draws h hsendb hshow).1⟩

/-- Settles O41: EXT is written by no instruction, and replacing it commutes with each but COPYX. -/
theorem onlyCopyxReadsExternalBuffer : Obligations.OnlyCopyxReadsExternalBuffer :=
  fun _ _ _ h => ⟨exec_keeps_ext h, exec_commutes_ext h⟩

/-- Settles O4: the expander's four bytes are the transmit bytes of the value's bit pairs, highest pair
first, and a transmit byte has its payload at bits 5 and 1. -/
theorem groupCarriesHighBitsFirst : Obligations.GroupCarriesHighBitsFirst := by
  intro v
  refine ⟨_, _, _, _, expand_eq_txBytes v, ?_⟩
  simp only [txByte_getLsbD_five, txByte_getLsbD_one, and_self]

end

section
/-! SUPPORT. The decoder read backwards (30_encoding.md R65, R66): a word is put together again from the
fields read from it, so what a reader accepts is what the encoder writes. The decoder read forwards:
what the encoder writes is read back. -/

namespace Sys2Proof

/-! ### Words from their fields -/

theorem opField_append_aField (w : Word) : opField w ++ aField w = w :=
  (BitVec.extractLsb'_append_extractLsb'_eq_extractLsb' rfl).trans BitVec.extractLsb'_eq_self

theorem opField_append_midByte (w : Word) : opField w ++ midByte w = highHalf w :=
  BitVec.extractLsb'_append_extractLsb'_eq_extractLsb' rfl

theorem highHalf_append_lowHalf (w : Word) : highHalf w ++ lowHalf w = w :=
  (BitVec.extractLsb'_append_extractLsb'_eq_extractLsb' rfl).trans BitVec.extractLsb'_eq_self

theorem ofNat_opField {w : Word} {op : Nat} (h : (opField w).toNat = op) :
    BitVec.ofNat 8 op = opField w := by
  rw [← h, BitVec.ofNat_toNat, BitVec.setWidth_eq]

/-- A header word is the one of the opcode and the field `a` read from it (R58). -/
theorem headerWord_of_fields {w : Word} {op : Nat} {a : BitVec 24} (hop : (opField w).toNat = op)
    (ha : aField w = a) : headerWord (BitVec.ofNat 8 op) a = w := by
  rw [headerWord, ofNat_opField hop, ← ha, opField_append_aField]

/-- A word of format I is the one of its opcode and its immediate, where the byte between is zero (R60). -/
theorem immediateWord_of_fields {w : Word} {op : Nat} (hop : (opField w).toNat = op)
    (hmid : midByte w = 0#8) : immediateWord (BitVec.ofNat 8 op) (lowHalf w) = w := by
  rw [immediateWord, ofNat_opField hop, ← hmid, opField_append_midByte, highHalf_append_lowHalf]

/-- A triple word is the only word that reads as its triple (R62). -/
theorem tripleWord_of_decodeTriple {w : Word} {t : Triple} (h : decodeTriple w = .ok t) :
    tripleWord t = w := by
  unfold decodeTriple at h
  split at h
  · rename_i hop
    cases h
    have hupper : highHalf w ++ w.extractLsb' 8 8 = w.extractLsb' 8 24 :=
      BitVec.extractLsb'_append_extractLsb'_eq_extractLsb' rfl
    have hword : w.extractLsb' 8 24 ++ w.extractLsb' 0 8 = w :=
      (BitVec.extractLsb'_append_extractLsb'_eq_extractLsb' rfl).trans BitVec.extractLsb'_eq_self
    rw [tripleWord, ← BitVec.ofNat_eq_ofNat, ← hop, ← midByte, opField_append_midByte, hupper,
      hword]
  · cases h

/-- An offset word is the only word that reads as its offset (R62). -/
theorem offsetWord_of_decodeOffset {w : Word} {o : Offset} (h : decodeOffset w = .ok o) :
    offsetWord o = w := by
  unfold decodeOffset at h
  split at h
  · rename_i hhigh
    cases h
    rw [offsetWord, ← BitVec.ofNat_eq_ofNat, ← hhigh, highHalf_append_lowHalf]
  · cases h

/-! ### Payloads -/

section
variable {α : Type} {read : Word → Except DecodeError α} {write : α → Word}

/-- A payload that reads as a list is the list written, where this holds of one element. -/
theorem map_of_decodeAll (h : ∀ w x, read w = .ok x → write x = w) {ws : List Word} {xs : List α}
    (hd : decodeAll read ws = .ok xs) : xs.map write = ws := by
  induction ws generalizing xs with
  | nil => cases hd; rfl
  | cons w ws ih =>
    unfold decodeAll at hd
    split at hd
    · cases hd
    · rename_i x hx
      split at hd
      · cases hd
      · rename_i xs hxs
        cases hd
        rw [List.map_cons, h w x hx, ih hxs]

/-- A counted payload of what the encoder writes is read back (R61). -/
theorem decodeCounted_map (h : ∀ x, read (write x) = .ok x) {xs : List α}
    (hfits : countFits xs = true) :
    decodeCounted read (countWord xs) (xs.map write) = .ok xs := by
  simp [decodeCounted, countWord_toNat hfits, decodeAll_map h]

/-- A counted payload that reads as a list is the list written after its count word, and the list has an
encoding (R61). -/
theorem map_of_decodeCounted (h : ∀ w x, read w = .ok x → write x = w) {n : Word} {ws : List Word}
    {xs : List α} (hd : decodeCounted read n ws = .ok xs) :
    countFits xs = true ∧ countWord xs = n ∧ xs.map write = ws := by
  unfold decodeCounted at hd
  split at hd
  · rename_i hlen
    have hmap := map_of_decodeAll h hd
    have hcount : xs.length = n.toNat := by rw [← hlen, ← hmap, List.length_map]
    refine ⟨?_, ?_, hmap⟩
    · simpa [countFits, hcount] using n.isLt
    · rw [countWord, hcount, BitVec.ofNat_toNat, BitVec.setWidth_eq]
  · cases hd

end

/-- A mapped reading that succeeds maps a reading that does. -/
theorem ok_of_map_eq_ok {α β : Type} {x : Except DecodeError α} {f : α → β} {y : β}
    (h : x.map f = .ok y) : ∃ a, x = .ok a ∧ f a = y := by
  cases x with
  | error e => cases h
  | ok a => cases h; exact ⟨a, rfl, rfl⟩

/-! ### Formats (R59 to R61) -/

section
variable {w0 : Word} {rest : List Word} {i : Instr}

theorem decodeZ_ok {j : Instr} (h : decodeZ j w0 rest = .ok i) :
    i = j ∧ rest = [] ∧ aField w0 = 0 := by
  unfold decodeZ at h
  split_ifs at h with hrest ha
  cases h
  exact ⟨rfl, not_not.mp hrest, ha⟩

theorem decodeSetq_ok (h : decodeSetq w0 rest = .ok i) :
    i = .setq (lowHalf w0) ∧ rest = [] ∧ midByte w0 = 0 := by
  unfold decodeSetq at h
  split_ifs at h with hrest hmid
  cases h
  exact ⟨rfl, not_not.mp hrest, hmid⟩

theorem decodeFill_ok (h : decodeFill w0 rest = .ok i) :
    ∃ data, i = .fill (aField w0) data ∧ countFits data = true ∧
      rest = countWord data :: data.map tripleWord := by
  unfold decodeFill at h
  split at h
  · cases h
  · obtain ⟨data, hd, rfl⟩ := ok_of_map_eq_ok h
    obtain ⟨hfits, rfl, rfl⟩ := map_of_decodeCounted (fun _ _ => tripleWord_of_decodeTriple) hd
    exact ⟨data, rfl, hfits, rfl⟩

theorem decodeShow_ok (h : decodeShow w0 rest = .ok i) :
    ∃ data, i = .showData data ∧ aField w0 = 0 ∧ countFits data = true ∧
      rest = countWord data :: data.map tripleWord := by
  unfold decodeShow at h
  split at h
  · cases h
  · split_ifs at h with ha
    obtain ⟨data, hd, rfl⟩ := ok_of_map_eq_ok h
    obtain ⟨hfits, rfl, rfl⟩ := map_of_decodeCounted (fun _ _ => tripleWord_of_decodeTriple) hd
    exact ⟨data, rfl, ha, hfits, rfl⟩

theorem decodeSetmap_ok (h : decodeSetmap w0 rest = .ok i) :
    ∃ r g b offsets, i = .setmap r g b offsets ∧ aField w0 = 0 ∧ countFits offsets = true ∧
      rest = countWord offsets :: offsetWord r :: offsetWord g :: offsetWord b ::
        offsets.map offsetWord := by
  unfold decodeSetmap at h
  split at h
  · split_ifs at h with ha
    split at h
    · rename_i r g b hr hg hb
      obtain ⟨offsets, hd, rfl⟩ := ok_of_map_eq_ok h
      obtain ⟨hfits, rfl, rfl⟩ := map_of_decodeCounted (fun _ _ => offsetWord_of_decodeOffset) hd
      obtain rfl := offsetWord_of_decodeOffset hr
      obtain rfl := offsetWord_of_decodeOffset hg
      obtain rfl := offsetWord_of_decodeOffset hb
      exact ⟨r, g, b, offsets, rfl, ha, hfits, rfl⟩
    · cases h
  · cases h

/-! ### Commands and transmit bytes -/

/-- A word read by format Z is the encoding of the command it was read for. -/
theorem encode_of_decodeZ {op : Nat} {j : Instr} (hop : (opField w0).toNat = op)
    (hwf : j.wellFormed = true) (hj : encode j = .words [headerWord (BitVec.ofNat 8 op) 0])
    (h : decodeZ j w0 rest = .ok i) : i.wellFormed = true ∧ encode i = .words (w0 :: rest) := by
  obtain ⟨rfl, rfl, ha⟩ := decodeZ_ok h
  exact ⟨hwf, by rw [hj, headerWord_of_fields hop ha]⟩

/-- Words that decode are the encoding of a well-formed instruction. -/
theorem encode_of_decodeCommand {ws : List Word} (h : decodeCommand ws = .ok i) :
    i.wellFormed = true ∧ encode i = .words ws := by
  unfold decodeCommand at h
  split at h
  · cases h
  · split at h
    next hop =>
      obtain ⟨rfl, rfl, hmid⟩ := decodeSetq_ok h
      exact ⟨rfl, congrArg (Encoded.words [·]) (immediateWord_of_fields hop hmid)⟩
    next hop => exact encode_of_decodeZ hop rfl rfl h
    next hop =>
      obtain ⟨data, rfl, hfits, rfl⟩ := decodeFill_ok h
      exact ⟨hfits, congrArg (Encoded.words <| · :: _) (headerWord_of_fields hop rfl)⟩
    next hop =>
      obtain ⟨r, g, b, offsets, rfl, ha, hfits, rfl⟩ := decodeSetmap_ok h
      exact ⟨hfits, congrArg (Encoded.words <| · :: _) (headerWord_of_fields hop ha)⟩
    next hop => exact encode_of_decodeZ hop rfl rfl h
    next hop => exact encode_of_decodeZ hop rfl rfl h
    next hop => exact encode_of_decodeZ hop rfl rfl h
    next hop =>
      obtain ⟨data, rfl, ha, hfits, rfl⟩ := decodeShow_ok h
      exact ⟨hfits, congrArg (Encoded.words <| · :: _) (headerWord_of_fields hop ha)⟩
    next => cases h

end

/-- A code word is the transmit byte of its payload bits (R51, R53). -/
theorem txByte_of_isCodeWord {b : Byte} (h : isCodeWord b = true) :
    txByte (b.getLsbD 5) (b.getLsbD 1) = b := by
  have := Machine.forall_byte
    (p := fun b => !isCodeWord b || txByte (b.getLsbD 5) (b.getLsbD 1) == b) (by decide +kernel) b
  simpa [h] using this

/-- A byte that decodes at a position is the encoding of the transmit byte read (R52). -/
theorem encode_of_decodeWireByte {pos : Fin 4} {b : Byte} {i : Instr}
    (h : decodeWireByte pos b = .ok i) : i.wellFormed = true ∧ encode i = .wire pos b := by
  unfold decodeWireByte at h
  split at h
  · rename_i hc
    cases h
    have hb := txByte_of_isCodeWord hc
    match pos with
    | 0 => exact ⟨rfl, congrArg (Encoded.wire 0) hb⟩
    | 1 => exact ⟨rfl, congrArg (Encoded.wire 1) hb⟩
    | 2 => exact ⟨rfl, congrArg (Encoded.wire 2) hb⟩
    | 3 => exact ⟨rfl, congrArg (Encoded.wire 3) hb⟩
  · cases h

/-! ### The decoder after the encoder (R63) -/

/-- The words of a SHOW with an encoding decode to it (R61, R62). -/
theorem decodeCommand_show {data : List Triple} (h : countFits data = true) :
    decodeCommand (headerWord 0x08 0 :: countWord data :: data.map tripleWord) =
      .ok (.showData data) := by
  simp [decodeCommand, decodeShow, decodeCounted_map decodeTriple_tripleWord h, Except.map]

/-- The words of a SETMAP with an encoding decode to it (R61, R62). -/
theorem decodeCommand_setmap (r g b : Offset) {offsets : List Offset}
    (h : countFits offsets = true) :
    decodeCommand (headerWord 0x04 0 :: countWord offsets ::
      offsetWord r :: offsetWord g :: offsetWord b :: offsets.map offsetWord) =
      .ok (.setmap r g b offsets) := by
  simp [decodeCommand, decodeSetmap, decodeCounted_map decodeOffset_offsetWord h, Except.map]

end Sys2Proof
end

section
/-! SUPPORT. What the decoder refuses (30_encoding.md R65): for each reader, the words it gives an error
for. -/

namespace Sys2Proof

open Machine

/-- The reading gave an error. -/
def Refused {α : Type} (x : Except DecodeError α) : Prop := ∃ e, x = .error e

section
variable {α : Type}

@[simp] theorem refused_error (e : DecodeError) : Refused (.error e : Except DecodeError α) :=
  ⟨e, rfl⟩

@[simp] theorem not_refused_ok (x : α) : ¬ Refused (.ok x : Except DecodeError α) := nofun

theorem refused_or_ok (x : Except DecodeError α) : Refused x ∨ ∃ a, x = .ok a := by
  cases x with
  | error e => exact .inl ⟨e, rfl⟩
  | ok a => exact .inr ⟨a, rfl⟩

@[simp] theorem refused_map {β : Type} (x : Except DecodeError α) (f : α → β) :
    Refused (x.map f) ↔ Refused x := by
  cases x with
  | error e => simp [Except.map]
  | ok a => simp [Except.map]

/-- A reading under a condition is refused where the condition fails, too. -/
theorem refused_ite (p : Prop) [Decidable p] (x : Except DecodeError α) (e : DecodeError) :
    Refused (if p then x else .error e) ↔ ¬ p ∨ Refused x := by
  split <;> simp [*]

/-- A payload is refused where one of its words is. -/
theorem refused_decodeAll (read : Word → Except DecodeError α) (ws : List Word) :
    Refused (decodeAll read ws) ↔ ∃ w ∈ ws, Refused (read w) := by
  induction ws with
  | nil => simp [decodeAll]
  | cons w ws ih =>
    rw [List.exists_mem_cons_iff, ← ih, decodeAll]
    cases read w with
    | error e => simp
    | ok x => cases decodeAll read ws with
      | error e => simp
      | ok xs => simp

/-- A counted payload is refused for its length or for one of its words. -/
theorem refused_decodeCounted (read : Word → Except DecodeError α) (n : Word) (ws : List Word) :
    Refused (decodeCounted read n ws) ↔ ws.length ≠ n.toNat ∨ ∃ w ∈ ws, Refused (read w) := by
  rw [decodeCounted, refused_ite, refused_decodeAll]

end

theorem refused_decodeTriple (w : Word) : Refused (decodeTriple w) ↔ opField w ≠ 0 := by
  simp only [decodeTriple, refused_ite, not_refused_ok, or_false, ne_eq]

theorem refused_decodeOffset (w : Word) : Refused (decodeOffset w) ↔ highHalf w ≠ 0 := by
  simp only [decodeOffset, refused_ite, not_refused_ok, or_false, ne_eq]

/-! ### Formats (R59 to R61) -/

theorem refused_decodeZ (i : Instr) (w0 : Word) (rest : List Word) :
    Refused (decodeZ i w0 rest) ↔ rest ≠ [] ∨ aField w0 ≠ 0 := by
  rw [decodeZ]
  split
  · simp [*]
  · simp only [refused_ite, not_refused_ok, or_false, false_or, *]

theorem refused_decodeSetq (w0 : Word) (rest : List Word) :
    Refused (decodeSetq w0 rest) ↔ rest ≠ [] ∨ midByte w0 ≠ 0 := by
  rw [decodeSetq]
  split
  · simp [*]
  · simp only [refused_ite, not_refused_ok, or_false, false_or, *]

theorem refused_decodeFill_cons (w0 n : Word) (payload : List Word) :
    Refused (decodeFill w0 (n :: payload)) ↔
      payload.length ≠ n.toNat ∨ ∃ w ∈ payload, opField w ≠ 0 := by
  simp only [decodeFill, refused_map, refused_decodeCounted, refused_decodeTriple]

theorem refused_decodeShow_cons (w0 n : Word) (payload : List Word) :
    Refused (decodeShow w0 (n :: payload)) ↔
      aField w0 ≠ 0 ∨ payload.length ≠ n.toNat ∨ ∃ w ∈ payload, opField w ≠ 0 := by
  simp only [decodeShow, refused_ite, refused_map, refused_decodeCounted, refused_decodeTriple, ne_eq]

/-- The words after the count are the channel offsets and the bases: at least three, each an offset word. -/
theorem refused_decodeSetmap_cons (w0 n : Word) (payload : List Word) :
    Refused (decodeSetmap w0 (n :: payload)) ↔
      aField w0 ≠ 0 ∨ payload.length ≠ 3 + n.toNat ∨ ∃ w ∈ payload, highHalf w ≠ 0 := by
  match payload with
  | [] => simp [decodeSetmap]; omega
  | [_] => simp [decodeSetmap]; omega
  | [_, _] => simp [decodeSetmap]; omega
  | r :: g :: b :: bases =>
    simp only [decodeSetmap, refused_ite, ← refused_decodeOffset, List.exists_mem_cons_iff]
    refine or_congr_right ?_
    split
    · rename_i ro go bo hr hg hb
      have hlen : (r :: g :: b :: bases).length ≠ 3 + n.toNat ↔ bases.length ≠ n.toNat := by
        simp only [List.length_cons]; omega
      simp only [refused_map, refused_decodeCounted, hlen, hr, hg, hb, not_refused_ok, false_or]
    · rename_i hnot
      refine iff_of_true (refused_error _) (.inr ?_)
      obtain hr | ⟨ro, hr⟩ := refused_or_ok (decodeOffset r)
      · exact .inl hr
      obtain hg | ⟨go, hg⟩ := refused_or_ok (decodeOffset g)
      · exact .inr (.inl hg)
      obtain hb | ⟨bo, hb⟩ := refused_or_ok (decodeOffset b)
      · exact .inr (.inr (.inl hb))
      exact (hnot ro go bo hr hg hb).elim

/-! ### Commands (R63, R65) -/

/-- The decoder refuses only words that meet a condition of R65. -/
theorem illegalWords_of_refused {ws : List Word} (h : Refused (decodeCommand ws)) :
    IllegalWords ws := by
  unfold decodeCommand at h
  split at h
  · exact .empty
  · rename_i w0 rest
    split at h
    next hop =>
      exact .formatI w0 rest hop ((refused_decodeSetq _ _).mp h)
    next hop =>
      exact .formatZ w0 rest (by simp [hop]) ((refused_decodeZ _ _ _).mp h)
    next hop =>
      cases rest with
      | nil => exact .noCount w0 (by simp [hop])
      | cons n payload =>
        exact .triples w0 n payload (by simp [hop]) ((refused_decodeFill_cons _ _ _).mp h)
    next hop =>
      cases rest with
      | nil => exact .noCount w0 (by simp [hop])
      | cons n payload =>
        obtain ha | hpayload := (refused_decodeSetmap_cons _ _ _).mp h
        · exact .setmapField w0 _ hop ha
        · exact .offsets w0 n payload hop hpayload
    next hop =>
      exact .formatZ w0 rest (by simp [hop]) ((refused_decodeZ _ _ _).mp h)
    next hop =>
      exact .formatZ w0 rest (by simp [hop]) ((refused_decodeZ _ _ _).mp h)
    next hop =>
      exact .formatZ w0 rest (by simp [hop]) ((refused_decodeZ _ _ _).mp h)
    next hop =>
      cases rest with
      | nil => exact .noCount w0 (by simp [hop])
      | cons n payload =>
        obtain ha | hpayload := (refused_decodeShow_cons _ _ _).mp h
        · exact .showField w0 _ hop ha
        · exact .triples w0 n payload (by simp [hop]) hpayload
    next =>
      refine .opcode w0 rest ?_
      simp only [imp_false] at *
      omega

/-- Words that meet a condition of R65 are refused. -/
theorem refused_of_illegalWords {ws : List Word} (h : IllegalWords ws) :
    Refused (decodeCommand ws) := by
  cases h with
  | empty => exact ⟨_, rfl⟩
  | opcode w0 rest h =>
    rw [decodeCommand]
    split
    case h_9 => exact refused_error _
    all_goals omega
  | formatZ w0 rest op h =>
    simp only [List.mem_cons, List.not_mem_nil, or_false] at op
    obtain op | op | op | op := op <;>
      simpa only [decodeCommand, op] using (refused_decodeZ _ _ _).mpr h
  | formatI w0 rest op h => simpa only [decodeCommand, op] using (refused_decodeSetq _ _).mpr h
  | noCount w0 op =>
    simp only [List.mem_cons, List.not_mem_nil, or_false] at op
    obtain op | op | op := op <;> simp [decodeCommand, op, decodeFill, decodeSetmap, decodeShow]
  | showField w0 rest op h =>
    simp only [decodeCommand, op]
    cases rest with
    | nil => exact ⟨_, rfl⟩
    | cons n payload => exact (refused_decodeShow_cons _ _ _).mpr (.inl h)
  | triples w0 n payload op h =>
    simp only [List.mem_cons, List.not_mem_nil, or_false] at op
    obtain op | op := op
    · simpa only [decodeCommand, op] using (refused_decodeFill_cons _ _ _).mpr h
    · simpa only [decodeCommand, op] using (refused_decodeShow_cons _ _ _).mpr (.inr h)
  | setmapField w0 rest op h =>
    simp only [decodeCommand, op]
    cases rest with
    | nil => exact ⟨_, rfl⟩
    | cons n payload => exact (refused_decodeSetmap_cons _ _ _).mpr (.inl h)
  | offsets w0 n payload op h =>
    simpa only [decodeCommand, op] using (refused_decodeSetmap_cons _ _ _).mpr (.inr h)

end Sys2Proof
end

section
/-! SUPPORT. The wire format (30_encoding.md Part A): a group of transmit bytes and its value, the state after
a transmit byte, and runs of the wire decoder over the groups of a frame. -/

namespace Sys2Proof.Machine

/-! ### Groups (R51, R52, R55) -/

theorem txByte_toNat (a b : Bool) :
    (txByte a b).toNat = 0x11 + 0x20 * a.toNat + 0x02 * b.toNat := by
  cases a <;> cases b <;> rfl

/-- The bits of a decoded group, highest pair first (R55). -/
theorem decodeGroup_bits (o : Group) :
    (decodeGroup o)[7] = o.out0[5] ∧ (decodeGroup o)[6] = o.out0[1] ∧
    (decodeGroup o)[5] = o.out1[5] ∧ (decodeGroup o)[4] = o.out1[1] ∧
    (decodeGroup o)[3] = o.out2[5] ∧ (decodeGroup o)[2] = o.out2[1] ∧
    (decodeGroup o)[1] = o.out3[5] ∧ (decodeGroup o)[0] = o.out3[1] :=
  byteOfBits_bits _ _ _ _ _ _ _ _

/-- The group whose transmit bytes carry the bit pairs of a channel value, highest pair first (R52). -/
def groupOf (v : Byte) : Group :=
  ⟨txByte (v.getLsbD 7) (v.getLsbD 6), txByte (v.getLsbD 5) (v.getLsbD 4),
    txByte (v.getLsbD 3) (v.getLsbD 2), txByte (v.getLsbD 1) (v.getLsbD 0)⟩

theorem expand_eq_groupOf (v : Byte) :
    expand v = [(groupOf v).out0, (groupOf v).out1, (groupOf v).out2, (groupOf v).out3] :=
  expand_eq_txBytes v

theorem decodeGroup_groupOf (v : Byte) : decodeGroup (groupOf v) = v := by
  have := forall_byte (p := fun v => decodeGroup (groupOf v) == v) (by decide +kernel) v
  simpa using this

theorem decodeStrict_groupOf (v : Byte) : decodeStrict (groupOf v) = some v := by
  simp only [decodeStrict, groupOf, txByte_isCodeWord, Bool.and_self, if_true]
  exact congrArg some (decodeGroup_groupOf v)

theorem isCodeWord_iff (b : Byte) : isCodeWord b = true ↔ b &&& 0xDD = 0x11 := by
  simp [isCodeWord]

/-- The strict decoder refuses a group with a byte that is no code word (R56). -/
theorem decodeStrict_eq_none_iff (o : Group) :
    decodeStrict o = none ↔
      ¬ (o.out0 &&& 0xDD = 0x11 ∧ o.out1 &&& 0xDD = 0x11 ∧
        o.out2 &&& 0xDD = 0x11 ∧ o.out3 &&& 0xDD = 0x11) := by
  simp only [decodeStrict, ← isCodeWord_iff, ite_eq_right_iff, reduceCtorEq, imp_false,
    Bool.and_eq_true, and_assoc]

/-! ### One transmit byte (R52, R55) -/

section
variable (j : Fin 4) (a b : Bool) (s : State)

@[simp] theorem takeTxByte_pos : (takeTxByte j a b s).wire.pos = j + 1 := rfl

@[simp] theorem takeTxByte_out :
    (takeTxByte j a b s).wire.out = putByte s.wire.out j (txByte a b) := rfl

@[simp] theorem takeTxByte_values :
    (takeTxByte j a b s).wire.values =
      if j = 3 then s.wire.values ++ [decodeGroup (takeTxByte j a b s).wire.out]
      else s.wire.values := rfl

/-- A transmit byte changes nothing of the block. -/
theorem takeTxByte_frame : KeepsAllBut [.wire] s (takeTxByte j a b s) :=
  keepsAllBut_of_fields (fun _ => rfl) (fun _ => rfl) (fun _ => rfl) (fun _ => rfl) (fun _ => rfl)
    (fun _ => rfl) (fun _ => rfl) (fun _ => rfl) (fun _ => rfl) (fun _ => rfl)
    (fun h => absurd (List.mem_singleton_self _) h)

end

/-! ### Runs of the wire decoder -/

/-- A step that gives a next state begins a run. -/
theorem core_run_succ {s t : State} (h : step s = .next t) (k : Nat) :
    core.run (k + 1) s = core.run k t := by
  have hcore : core.step s = .next t := h
  simp only [Host.Core.run, hcore]

theorem step_txByte {s : State} {j : Fin 4} {a b : Bool} {rest : List HostInput}
    (hj : s.wire.pos = j) (hi : s.inbox = .wireByte (txByte a b) :: rest) :
    step s = .next (takeTxByte j a b (beginWireByte rest s)) := by
  rw [step_wireByte hi (txByte_isCodeWord a b), txByte_getLsbD_five, txByte_getLsbD_one, hj]

/-- From a group's start, four steps over the expansion of a channel value recover the value. -/
theorem run_expand {s : State} {v : Byte} {rest : List HostInput} (hpos : s.wire.pos = 0)
    (hi : s.inbox = (expand v).map HostInput.wireByte ++ rest) (k : Nat) :
    core.run (k + 4) s =
      core.run k { s with inbox := rest, wire := ⟨0, groupOf v, s.wire.values ++ [v]⟩ } := by
  nth_rewrite 2 [← decodeGroup_groupOf v]
  rw [expand_eq_groupOf] at hi
  rw [core_run_succ (step_txByte hpos hi), core_run_succ (step_txByte (j := 1) rfl rfl),
    core_run_succ (step_txByte (j := 2) rfl rfl), core_run_succ (step_txByte (j := 3) rfl rfl)]
  simp [takeTxByte, State.setWire, beginWireByte, putByte, groupOf]

/-- From a group's start, the wire decoder recovers the scaled channels from the bytes of a pass (R55,
41_encoder.md R87). -/
theorem run_encodeBytes {s : State} {wb : List Byte} {q : Intensity} {rest : List HostInput}
    (hpos : s.wire.pos = 0) (hi : s.inbox = (encodeBytes wb q).map HostInput.wireByte ++ rest) :
    ∃ out, core.run (4 * wb.length) s =
      .next { s with
        inbox := rest, wire := ⟨0, out, s.wire.values ++ wb.map (scale · q)⟩ } := by
  induction wb generalizing s with
  | nil =>
    obtain rfl : s.inbox = rest := hi
    refine ⟨s.wire.out, ?_⟩
    rw [List.map_nil, List.append_nil, ← hpos]
    rfl
  | cons v wb ih =>
    rw [encodeBytes_cons, List.map_append, List.append_assoc] at hi
    have hgroup := run_expand hpos hi (4 * wb.length)
    obtain ⟨out, hrest⟩ := ih (s := { s with
      inbox := _, wire := ⟨0, groupOf (scale v q), s.wire.values ++ [scale v q]⟩ }) rfl rfl
    refine ⟨out, ?_⟩
    rw [List.length_cons, Nat.mul_succ, hgroup, hrest, List.map_cons, List.append_assoc,
      List.singleton_append]

/-- Only the inbox and the wire decoder differ. -/
theorem keepsAllBut_wire_inbox (s : State) (inbox : List HostInput) (wire : WireDecoder) :
    KeepsAllBut [.wire, .inbox] s { s with inbox := inbox, wire := wire } :=
  keepsAllBut_of_fields (fun _ => rfl) (fun _ => rfl) (fun _ => rfl) (fun _ => rfl) (fun _ => rfl)
    (fun _ => rfl) (fun _ => rfl) (fun _ => rfl) (fun _ => rfl) (by simp) (by simp)

end Sys2Proof.Machine
end

section
/-! SUPPORT. Commands at the port (30_encoding.md R58): what a step with a command does to the records and the
inputs, and an instruction laid before the block. -/

namespace Sys2Proof.Machine

/-! ### What an instruction does to the inputs and the records -/

section
variable {i : Instr} {s t : State}

/-- No instruction takes an input. -/
theorem exec_keeps_inbox (h : exec i s = .next t) : t.inbox = s.inbox := by
  cases i with
  | copyx => obtain ⟨wb, -, rfl⟩ := exec_copyx_next h; rfl
  | sendb => cases h; simp [encodeAndTransmit]
  | showData data => cases h; simp [encodeAndTransmit]
  | _ => cases h; rfl

/-- An instruction hands over at most one frame (44_orchestration.md R110). -/
theorem exec_sends_at_most_one (h : exec i s = .next t) :
    t.txlog = s.txlog ∨ ∃ e, t.txlog = s.txlog ++ [e] := by
  cases i with
  | sendb => cases h; exact .inr ⟨_, encodeAndTransmit_txlog s⟩
  | showData data => cases h; exact .inr ⟨_, encodeAndTransmit_txlog _⟩
  | _ => exact .inl (exec_keeps_txlog_draws h nofun nofun).1

theorem legalResponse_outcome (o : TransportOutcome) :
    LegalResponse (responseWord (outcomeStatus o) 0) := by
  cases o with
  | ok => exact legalResponse_ok 0
  | fail => exact legalResponse_error .transportError

/-- A host command answers with one legal response (R64). -/
theorem exec_responds_once {words : List Word} (he : encode i = .words words)
    (h : exec i s = .next t) : ∃ r, t.rsplog = s.rsplog ++ [r] ∧ LegalResponse r := by
  cases i with
  | copyx =>
    obtain ⟨wb, -, rfl⟩ := exec_copyx_next h
    exact ⟨_, rfl, legalResponse_ok 0⟩
  | sendb => cases h; exact ⟨_, encodeAndTransmit_rsplog s, legalResponse_outcome _⟩
  | showData data => cases h; exact ⟨_, encodeAndTransmit_rsplog _, legalResponse_outcome _⟩
  | txb0 a b => cases he
  | txb1 a b => cases he
  | txb2 a b => cases he
  | txb3 a b => cases he
  | _ => cases h; exact ⟨_, rfl, legalResponse_ok _⟩

end

/-! ### An instruction laid before the block (R58, 70_reset_and_hazards.md R159) -/

theorem eq_ok_of_toOption {α : Type} {x : Except DecodeError α} {a : α} (h : x.toOption = some a) :
    x = .ok a := by
  cases x with
  | error e => cases h
  | ok b => cases h; rfl

/-- A word of the opcode table that decodes as a command is run on the state it was laid before. -/
theorem step_withFetchWord_command {s : State} {nbits w : Nat} {i : Instr} (hbits : nbits ≠ 8)
    (hp : portDrives s.n = true) (hd : decodeTableWord nbits w = some i) :
    step (s.withFetchWord nbits w) = exec i s := by
  rw [decodeTableWord, if_neg hbits] at hd
  have hinput : tableInput s nbits w = .command (tableWords nbits w) s.ext := if_neg hbits
  have hi : (s.withFetchWord nbits w).inbox = .command (tableWords nbits w) s.ext :: s.inbox :=
    congrArg (· :: s.inbox) hinput
  exact step_command hi hp (eq_ok_of_toOption hd)

/-- A transmit byte that decodes at the wire decoder's position is run. -/
theorem step_wireByte_decoded {s : State} {b : Byte} {rest : List HostInput} {i : Instr}
    (hi : s.inbox = .wireByte b :: rest) (hd : decodeWireByte s.wire.pos b = .ok i) :
    step s = exec i (beginWireByte rest s) := by
  simp only [step, hi, hd]

/-- An 8-bit word of the opcode table is run as the first byte of a group. -/
theorem step_withFetchWord_wireByte {s : State} {w : Nat} {i : Instr} (hpos : s.wire.pos = 0)
    (hd : decodeTableWord 8 w = some i) : step (s.withFetchWord 8 w) = exec i s := by
  have hd' : decodeWireByte s.wire.pos (BitVec.ofNat 8 w) = .ok i := hpos ▸ eq_ok_of_toOption hd
  exact step_wireByte_decoded (rest := s.inbox) rfl hd'

end Sys2Proof.Machine
end

section
/-! The statements on the encodings (30_encoding.md). -/

open Sys2Proof Sys2Proof.Machine

/-- Settles O29: row by row, a list operand by its count word and its payload, one word for each element. -/
theorem decodeInvertsEncode : Obligations.DecodeInvertsEncode := by
  intro i h
  cases i with
  | setq imm16 => simp [encode, decode, decodeCommand, decodeSetq]
  | fill start data => exact decodeCommand_fill start h
  | setmap r g b offsets => exact decodeCommand_setmap r g b h
  | showData data => exact decodeCommand_show h
  | txb0 a b => simp [encode, decode, decodeWireByte]
  | txb1 a b => simp [encode, decode, decodeWireByte]
  | txb2 a b => simp [encode, decode, decodeWireByte]
  | txb3 a b => simp [encode, decode, decodeWireByte]
  | _ => rfl

/-- Settles O30: each reader accepts only what the encoder writes. -/
theorem everyLegalEncodingIsTheEncoders : Obligations.EveryLegalEncodingIsTheEncoders := by
  intro e i h
  cases e with
  | words ws => exact encode_of_decodeCommand h
  | wire pos b => exact encode_of_decodeWireByte h

/-- Settles O28: each group of four steps recovers one channel, and a run over the groups changes only the
inbox and the wire decoder. -/
theorem wireDecoderRecoversTheFrame : Obligations.WireDecoderRecoversTheFrame := by
  intro s wb q rest hpos hi
  obtain ⟨out, hrun⟩ := run_encodeBytes hpos hi
  exact ⟨_, hrun, rfl, rfl, rfl, keepsAllBut_wire_inbox s rest _⟩

/-- Settles O31: opcode by opcode, the words a format's reader refuses are those of the rule's
conditions. -/
theorem decoderRefusesExactlyIllegalWords : Obligations.DecoderRefusesExactlyIllegalWords :=
  fun _ => ⟨illegalWords_of_refused, refused_of_illegalWords⟩

/-- Settles O35: the words issued are the instruction's encoding, which decodes to it. -/
theorem issuedCommandRuns : Obligations.IssuedCommandRuns := by
  intro s i ext rest words h1 h2 hwf he hi
  have hissue : issue i ext = .command words ext := by rw [issue, he]
  have hd : decodeCommand words = .ok i := by
    have := decodeInvertsEncode i hwf
    rwa [he] at this
  rw [hissue] at hi
  exact step_command hi ((portDrives_iff _).mpr ⟨h1, h2⟩) hd

/-- Settles O36: words that decode are the encoding of a host command, which answers once; words that do
not are rejected with one answer. -/
theorem oneResponsePerCommand : Obligations.OneResponsePerCommand := by
  intro s t words ext rest hi h
  have hp := portDrives_of_step_command hi h
  cases hd : decodeCommand words with
  | ok i =>
    have he : exec i (beginCommand ext rest s) = .next t := (step_command hi hp hd).symm.trans h
    obtain ⟨-, hwords⟩ := encode_of_decodeCommand hd
    exact ⟨by simpa using exec_responds_once hwords he, by simpa using exec_sends_at_most_one he,
      exec_keeps_inbox he, exec_keeps_ext he⟩
  | error e =>
    cases (step_illegal hi hp hd).symm.trans h
    exact ⟨⟨_, rfl, legalResponse_error .illegalCommand⟩, .inl rfl, rfl, rfl⟩

/-- Settles O5: the expander writes the group of the value's bit pairs, which decodes to the value and holds
code words only. -/
theorem decodersInvertExpand : Obligations.DecodersInvertExpand := by
  refine ⟨fun v o0 o1 o2 o3 h => ?_, decodeStrict_eq_none_iff⟩
  rw [expand_eq_groupOf] at h
  cases h
  exact ⟨decodeGroup_groupOf v, decodeStrict_groupOf v⟩

/-- Settles O27: each of the four is the one operation on the wire decoder at its own position. -/
theorem transmitBytesCarryTheirBits : Obligations.TransmitBytesCarryTheirBits := by
  intro a b s
  refine ⟨takeTxByte 0 a b s, takeTxByte 1 a b s, takeTxByte 2 a b s, takeTxByte 3 a b s,
    rfl, rfl, rfl, rfl, ?_⟩
  simp [takeTxByte_frame, putByte, txByte_toNat, decodeGroup_bits]

/-- Settles O32: the decoder evaluates on each of the vectors. -/
theorem vectorWordsDecode : Obligations.VectorWordsDecode :=
  ⟨rfl, rfl, rfl, rfl, rfl, rfl, rfl⟩

/-- Settles O34: what is laid before the block is the first input, and taking it gives the state back. -/
theorem fetchedWordRunsNext : Obligations.FetchedWordRunsNext :=
  fun _ _ _ =>
    ⟨fun h1 h2 => step_withFetchWord_command (by decide) ((portDrives_iff _).mpr ⟨h1, h2⟩),
      step_withFetchWord_wireByte⟩

end

section
/-! SUPPORT. The scaler on numbers (40_scaler.md R70, R71). -/

namespace Sys2Proof.Machine

/-- The exact product is at most 255 * 256, so its quotient by 256 fits the byte (R71). -/
theorem scale_toNat (v : Byte) (q : Intensity) : (scale v q).toNat = v.toNat * q.val / 256 := by
  have hprod : v.toNat * q.val ≤ 255 * 256 :=
    Nat.mul_le_mul (Nat.le_of_lt_succ v.isLt) (Nat.le_of_lt_succ q.isLt)
  rw [scale, BitVec.toNat_ofNat, Nat.shiftRight_eq_div_pow]
  omega

/-- The scaler is monotone in the value and in the intensity together. -/
theorem scale_mono {v1 v2 : Byte} {q1 q2 : Intensity} (hv : v1.toNat ≤ v2.toNat)
    (hq : q1.val ≤ q2.val) : (scale v1 q1).toNat ≤ (scale v2 q2).toNat := by
  rw [scale_toNat, scale_toNat]
  exact Nat.div_le_div_right (Nat.mul_le_mul hv hq)

theorem scale_fullIntensity (v : Byte) : scale v ⟨256, by decide⟩ = v :=
  BitVec.eq_of_toNat_eq (by rw [scale_toNat, Nat.mul_div_cancel _ (by decide)])

theorem scale_zeroIntensity (v : Byte) : scale v ⟨0, by decide⟩ = 0 :=
  BitVec.eq_of_toNat_eq (by rw [scale_toNat, Nat.mul_zero]; rfl)

/-- No intensity scales above full intensity, which is the identity. -/
theorem scale_le (v : Byte) (q : Intensity) : (scale v q).toNat ≤ v.toNat := by
  have := scale_mono (le_refl v.toNat) (q2 := ⟨256, by decide⟩) (Nat.le_of_lt_succ q.isLt)
  rwa [scale_fullIntensity] at this

/-- Below full intensity no product reaches 255 * 256. -/
theorem scale_lt_255 (v : Byte) {q : Intensity} (hq : q.val < 256) : (scale v q).toNat < 255 := by
  have hprod : v.toNat * q.val ≤ 255 * 255 :=
    Nat.mul_le_mul (Nat.le_of_lt_succ v.isLt) (Nat.le_of_lt_succ hq)
  rw [scale_toNat]
  omega

/-- Below full intensity the value 1 is truncated to nothing. -/
theorem scale_one {q : Intensity} (hq : q.val < 256) : scale 1 q = 0 :=
  BitVec.eq_of_toNat_eq (by
    rw [scale_toNat]
    exact Nat.div_eq_of_lt (by simpa using hq))

end Sys2Proof.Machine
end

section
/-! SUPPORT. Frames put together: a command's frame is that of its operations one after the other, and the
parts it may change are theirs. -/

namespace Sys2Proof.Machine

variable {s t u : State}

theorem Part.Same.trans {p : Part} (h : p.Same s t) (h' : p.Same t u) : p.Same s u := by
  cases p with
  | wb => exact fun k => (h' k).trans (h k)
  | tb => exact fun j => (h' j).trans (h j)
  | bm => exact ⟨h'.1.trans h.1, fun m => (h'.2 m).trans (h.2 m)⟩
  | ext => exact fun a => (h' a).trans (h a)
  | n | q | txlog | rsplog | draws | inbox | wire => exact Eq.trans h' h

theorem KeepsAllBut.trans {first second : List Part} (h : KeepsAllBut first s t)
    (h' : KeepsAllBut second t u) : KeepsAllBut (first ++ second) s u := by
  intro p hp
  rw [List.mem_append, not_or] at hp
  obtain ⟨hfirst, hsecond⟩ := hp
  exact (h p hfirst).trans (h' p hsecond)

theorem respond_frame (status : BitVec 4) (value : BitVec 24) (s : State) :
    KeepsAllBut [.rsplog] s (respond status value s) :=
  keepsAllBut_of_fields (fun _ => rfl) (fun _ => rfl) (fun _ => rfl) (fun _ => rfl) (fun _ => rfl)
    (fun _ => rfl) (fun h => absurd (List.mem_singleton_self _) h) (fun _ => rfl) (fun _ => rfl)
    (fun _ => rfl) (fun _ => rfl)

theorem setQ_frame (s : State) (q : Intensity) : KeepsAllBut [.q] s (s.setQ q) :=
  keepsAllBut_of_fields (fun _ => rfl) (fun h => absurd (List.mem_singleton_self _) h) (fun _ => rfl)
    (fun _ => rfl) (fun _ => rfl) (fun _ => rfl) (fun _ => rfl) (fun _ => rfl) (fun _ => rfl)
    (fun _ => rfl) (fun _ => rfl)

end Sys2Proof.Machine
end

section
/-! SUPPORT. The commands on the intensity register (40_scaler.md R73, R74). -/

namespace Sys2Proof.Machine

/-- SETQ leaves the saturated operand in Q. -/
theorem exec_setq_q {imm16 : BitVec 16} {s t : State} (h : exec (.setq imm16) s = .next t) :
    t.q.val = min imm16.toNat 256 := by
  cases h
  rfl

/-- GETQ answers Q, which fits the response's 24 bits. -/
theorem exec_getq (s : State) :
    ∃ t, exec .getq s = .next t ∧ Responds 0 s.q.val s t ∧ KeepsAllBut [.rsplog] s t := by
  have hvalue : (BitVec.ofNat 24 s.q.val).toNat = s.q.val := by
    rw [BitVec.toNat_ofNat, Nat.mod_eq_of_lt (s.q.isLt.trans (by decide))]
  have hresponds := responds_of_rsplog (respond_rsplog s statusOk (BitVec.ofNat 24 s.q.val))
  rw [hvalue] at hresponds
  exact ⟨_, rfl, hresponds, respond_frame _ _ s⟩

end Sys2Proof.Machine
end

section
/-! SUPPORT. Rounding and quantising to the nearest integer (40_scaler.md R75, R76). -/

namespace Sys2Proof.Machine

/-- Rounding takes the lower neighbour where the rest is at most a half and the upper one where it is at
least a half; at a tie either may be taken. -/
theorem roundRat_cases (ties : RoundTies) (x : Rat) :
    roundRat ties x = x.floor ∧ x - x.floor ≤ 1 / 2 ∨
      roundRat ties x = x.floor + 1 ∧ 1 / 2 ≤ x - x.floor := by
  rcases lt_trichotomy (x - x.floor) (1 / 2) with hlt | heq | hgt
  · exact .inl ⟨by simp only [roundRat, hlt, if_true], hlt.le⟩
  · have hround := roundRat_add_half ties x.floor
    rw [← heq, add_sub_cancel] at hround
    cases ties with
    | halfAwayFromZero => exact .inr ⟨hround, heq.ge⟩
    | halfToEven =>
      rcases Int.emod_two_eq_zero_or_one x.floor with heven | hodd
      · exact .inl ⟨by rwa [heven, add_zero] at hround, heq.le⟩
      · exact .inr ⟨by rwa [hodd] at hround, heq.ge⟩
  · exact .inr ⟨by simp only [roundRat, hgt.not_gt, hgt, if_true, if_false], hgt.le⟩

/-- Both treatments of ties round to an integer within half a step. -/
theorem roundRat_nearest (ties : RoundTies) (x : Rat) : |(roundRat ties x : Rat) - x| ≤ 1 / 2 := by
  have hlow : (x.floor : Rat) ≤ x := Int.floor_le x
  have hhigh : x < x.floor + 1 := Int.lt_floor_add_one x
  rw [abs_le]
  obtain ⟨hr, hrest⟩ | ⟨hr, hrest⟩ := roundRat_cases ties x
  · rw [hr]
    constructor <;> linarith
  · rw [hr, Int.cast_add, Int.cast_one]
    constructor <;> linarith

/-- Two integers at most half a step apart are one. -/
theorem eq_of_abs_sub_le_half {m k : Nat} (h : |(m : Rat) - k| ≤ 1 / 2) : m = k := by
  have hlt : |(m : Rat) - k| < 1 := by linarith
  have hlt : |(m : Int) - k| < 1 := by exact_mod_cast hlt
  exact Int.ofNat_inj.mp (sub_eq_zero.mp (Int.abs_lt_one_iff.mp hlt))

/-- A clamped request is between 0 and 1. -/
theorem clampUnit_mem (f : Rat) : 0 ≤ clampUnit f ∧ clampUnit f ≤ 1 :=
  ⟨le_max_left _ _, max_le zero_le_one (min_le_left _ _)⟩

/-- What a finite request quantises to is within half a step of 256 times the clamped request. -/
theorem quantise_finite (ties : RoundTies) (f : Rat) :
    ∃ q : Nat, quantise ties (.finite f) = some q ∧ |(q : Rat) - clampUnit f * 256| ≤ 1 / 2 := by
  have hnear := roundRat_nearest ties (clampUnit f * 256)
  obtain ⟨h0, -⟩ := clampUnit_mem f
  have hnonneg : 0 ≤ roundRat ties (clampUnit f * 256) := by
    have : ((-1 : Int) : Rat) < roundRat ties (clampUnit f * 256) := by
      push_cast
      linarith [(abs_le.mp hnear).1]
    exact Int.cast_lt.mp this
  refine ⟨_, rfl, ?_⟩
  rwa [← Int.cast_natCast, Int.toNat_of_nonneg hnonneg]

/-- A request whose clamped value is `k` steps quantises to `k`. -/
theorem quantise_of_clampUnit (ties : RoundTies) {f : Rat} {k : Nat} (h : clampUnit f * 256 = k) :
    quantise ties (.finite f) = some k := by
  obtain ⟨q, hq, hnear⟩ := quantise_finite ties f
  rw [h] at hnear
  rw [hq, eq_of_abs_sub_le_half hnear]

/-- Every result is in [0, 256]. -/
theorem quantise_le {ties : RoundTies} {f : HostFloat} {q : Nat} (h : quantise ties f = some q) :
    q ≤ 256 := by
  cases f with
  | finite f =>
    obtain ⟨q', hq, hnear⟩ := quantise_finite ties f
    obtain rfl : q' = q := Option.some.inj (hq.symm.trans h)
    obtain ⟨-, h1⟩ := clampUnit_mem f
    have : (q' : Rat) < (257 : Nat) := by
      push_cast
      linarith [(abs_le.mp hnear).2]
    exact Nat.le_of_lt_succ (Nat.cast_lt.mp this)
  | posInf => cases h; decide
  | negInf => cases h; decide
  | nan => cases h

/-- `set_intensity` issues the SETQ of the quantised request, and nothing else (R77). -/
theorem setIntensity_eq_some {ties : RoundTies} {f : HostFloat} {i : Instr}
    (h : setIntensity ties f = some i) :
    ∃ q, quantise ties f = some q ∧ i = .setq (BitVec.ofNat 16 q) := by
  obtain ⟨q, hq, rfl⟩ := Option.map_eq_some_iff.mp h
  exact ⟨q, hq, rfl⟩

end Sys2Proof.Machine
end

section
/-! The statements on the intensity scaler (40_scaler.md). -/

open Sys2Proof Sys2Proof.Machine

/-- Settles O2: the laws are those of the truncated quotient of a product that is at most 256 times the
value. -/
theorem scaleLaws : Obligations.ScaleLaws :=
  ⟨scale_fullIntensity, scale_zeroIntensity, scale_zero, scale_le,
    fun _ _ _ hq => scale_mono le_rfl (Nat.le_of_lt hq), fun _ _ _ hv => scale_mono hv le_rfl,
    fun _ hq => scale_one hq, fun v _ hq => scale_lt_255 v hq⟩

/-- Settles O49: the clamped request is 0, 1 or the request itself, and the result is the nearest
integer to 256 times it. -/
theorem quantiseRoundsTheClampedRequest : Obligations.QuantiseRoundsTheClampedRequest := by
  refine fun ties => ⟨fun f => ?_, rfl, rfl, rfl⟩
  obtain ⟨q, hq, hnear⟩ := quantise_finite ties f
  refine ⟨q, hq, quantise_le hq, fun h1 => ?_, fun h0 => ?_, fun h0 h1 => ?_⟩
  · rw [clampUnit_of_one_le h1, one_mul] at hnear
    exact eq_of_abs_sub_le_half hnear
  · rw [clampUnit_of_le_zero h0, zero_mul] at hnear
    exact eq_of_abs_sub_le_half (by exact_mod_cast hnear)
  · rw [clampUnit_of_mem h0 h1, abs_le] at hnear
    constructor <;> linarith

/-- Settles O51: Q / 256 is Q whole steps, and what is issued is at most 256, where SETQ does not
saturate. -/
theorem setIntensityStoresTheQuantised : Obligations.SetIntensityStoresTheQuantised := by
  refine ⟨fun ties q => ?_, fun ties f i s h => ?_⟩
  · have hq : (q.val : Rat) ≤ 256 := by exact_mod_cast Nat.le_of_lt_succ q.isLt
    refine quantise_of_clampUnit ties ?_
    rw [clampUnit_of_mem (by positivity) (by linarith)]
    ring
  · obtain ⟨q, hq, rfl⟩ := setIntensity_eq_some h
    have hle := quantise_le hq
    refine ⟨q, _, hq, rfl, (exec_setq_q rfl).trans ?_⟩
    rw [BitVec.toNat_ofNat]
    omega

/-- Settles O1: the shift by 8 is the quotient by 256, whose remainder is below 256. -/
theorem scaleIsTruncatedProduct : Obligations.ScaleIsTruncatedProduct := by
  intro v q
  refine ⟨(scale_toNat v q).trans (Nat.shiftRight_eq_div_pow _ 8).symm,
    Nat.le_of_lt_succ (scale v q).isLt, ?_⟩
  rw [scale_toNat]
  omega

/-- Settles O10: SETQ is a write of Q followed by a response. -/
theorem setqStoresSaturated : Obligations.SetqStoresSaturated :=
  fun _ s => ⟨_, rfl, exec_setq_q rfl, responds_of_rsplog (value := 0) rfl,
    (setQ_frame s _).trans (respond_frame _ _ _)⟩

/-- Settles O11: GETQ answers the Q of the state it finds, which a reset or a SETQ has left there. -/
theorem getqReturnsIntensity : Obligations.GetqReturnsIntensity := by
  refine ⟨rfl, rfl, exec_getq, ?_, fun q s => ?_⟩
  · obtain ⟨t, ht, hresponds, -⟩ := exec_getq State.reset
    exact ⟨t, ht, hresponds⟩
  · obtain ⟨t, ht, hq, -, -⟩ := setqStoresSaturated q s
    obtain ⟨u, hu, hresponds, -⟩ := exec_getq t
    rw [hq] at hresponds
    exact ⟨t, u, ht, hu, hresponds⟩

end

section
/-! SUPPORT. The expander and the encode pass (41_encoder.md): the narrowing to a byte loses nothing, the
loop of the pass group by group, and a frame read back. -/

namespace Sys2Proof.Machine

/-! ### The expander, and the scaler at the ends of the intensity (R80, R81, R83) -/

/-- The masks of a formula of the expander keep its result inside a byte, whatever was shifted. -/
theorem masked_lt_256 (x y : Nat) : (x &&& 0x02) ||| (y &&& 0x20) ||| 0x11 < 2 ^ 8 :=
  Nat.or_lt_two_pow
    (Nat.or_lt_two_pow (Nat.and_lt_two_pow x (by decide)) (Nat.and_lt_two_pow y (by decide)))
    (by decide)

theorem scale_of_val_zero (v : Byte) {q : Intensity} (hq : q.val = 0) : scale v q = 0 :=
  (congrArg (scale v) (Fin.ext hq)).trans (scale_zeroIntensity v)

theorem scale_of_val_full (v : Byte) {q : Intensity} (hq : q.val = 256) : scale v q = v :=
  (congrArg (scale v) (Fin.ext hq)).trans (scale_fullIntensity v)

/-- A channel byte of zero is expanded to four bytes 0x11 at every intensity (R83). -/
theorem expand_scale_zero (q : Intensity) : expand (scale 0 q) = List.replicate 4 0x11#8 :=
  congrArg expand (scale_zero q)

/-! ### The iterations of the pass (R82, R88) -/

section
variable {wb : List Byte} {q : Intensity} {tb : List Byte}

/-- An iteration on a channel of WB stores the channel's four bytes. -/
theorem encodeGroup_of_some {i : Nat} {v : Byte} (h : wb[i]? = some v) :
    encodeGroup wb q tb i = storeAt tb (4 * i) (expand (scale v q)) := by
  rw [encodeGroup, h]
  rfl

theorem encodeGroup_of_none {i : Nat} (h : wb[i]? = none) : encodeGroup wb q tb i = tb := by
  rw [encodeGroup, h]

@[simp] theorem encodeGroup_length (i : Nat) : (encodeGroup wb q tb i).length = tb.length := by
  cases h : wb[i]? with
  | none => rw [encodeGroup_of_none h]
  | some v => rw [encodeGroup_of_some h, storeAt_length]

@[simp] theorem encodeLoop_length (order : List Nat) :
    (encodeLoop wb q order tb).length = tb.length := by
  induction order generalizing tb with
  | nil => rfl
  | cons i order ih => exact ih.trans (encodeGroup_length i)

/-- An iteration writes its own group, as the pass does, and keeps every other group. -/
theorem encodeGroup_group (hlen : tb.length = 4 * wb.length) (i k : Nat) {j : Nat} (hj : j < 4) :
    (encodeGroup wb q tb i)[4 * k + j]? =
      if k = i then (encodeBytes wb q)[4 * k + j]? else tb[4 * k + j]? := by
  rw [encodeBytes_group wb q k j hj]
  cases h : wb[i]? with
  | none =>
    have hi : wb.length ≤ i := List.getElem?_eq_none_iff.mp h
    rw [encodeGroup_of_none h]
    split
    · next hk => rw [hk, h, List.getElem?_eq_none (by omega), Option.bind_none]
    · rfl
  | some v =>
    obtain ⟨hi, -⟩ := List.getElem?_eq_some_iff.mp h
    rw [encodeGroup_of_some h]
    split
    · next hk => rw [hk, h, storeAt_inside _ _ _ _ hj (by omega), Option.bind_some]
    · exact storeAt_outside _ _ _ _ (by rw [expand_length]; omega)

/-- After the iterations of any order, with or without repetition, the groups visited are those of the
pass and the others are as before. -/
theorem encodeLoop_group (hlen : tb.length = 4 * wb.length) (order : List Nat) (k : Nat) {j : Nat}
    (hj : j < 4) :
    (encodeLoop wb q order tb)[4 * k + j]? =
      if k ∈ order then (encodeBytes wb q)[4 * k + j]? else tb[4 * k + j]? := by
  induction order generalizing tb with
  | nil => rfl
  | cons i order ih =>
    have hrest := ih (tb := encodeGroup wb q tb i) ((encodeGroup_length i).trans hlen)
    rw [encodeGroup_group hlen i k hj] at hrest
    rw [encodeLoop, List.foldl_cons, ← encodeLoop, hrest]
    by_cases hk : k = i <;> simp [hk]

/-- An order that visits every channel gives the pass's TB. -/
theorem encodeLoop_eq_encodeBytes (hlen : tb.length = 4 * wb.length) {order : List Nat}
    (hall : ∀ k < wb.length, k ∈ order) : encodeLoop wb q order tb = encodeBytes wb q := by
  refine List.ext_getElem?' fun m hm => ?_
  rw [encodeLoop_length, encodeBytes_length, hlen, max_self] at hm
  rw [← Nat.div_add_mod m 4, encodeLoop_group hlen order _ (Nat.mod_lt m (by decide)),
    if_pos (hall _ (by omega))]

end

/-! ### The pass as a whole (R82, R83, R87) -/

theorem encodePass_frame (s : State) : KeepsAllBut [.tb] s (encodePass s) :=
  keepsAllBut_of_fields (fun _ => rfl) (fun _ => rfl) (fun _ => rfl)
    (fun h => absurd (List.mem_singleton_self _) h) (fun _ => rfl) (fun _ => rfl) (fun _ => rfl)
    (fun _ => rfl) (fun _ => rfl) (fun _ => rfl) (fun _ => rfl)

/-- The pass sees the work buffer only through the scaled channels. -/
theorem encodeBytes_eq_flatMap_expand (wb : List Byte) (q : Intensity) :
    encodeBytes wb q = (wb.map (scale · q)).flatMap expand := by
  rw [List.flatMap_map]
  rfl

/-- Every channel is scaled to zero, so TB is the all-off frame (40_scaler.md R72). -/
theorem encodeBytes_zeroIntensity {wb : List Byte} {n : Nat} {q : Intensity}
    (hlen : wb.length = 3 * n) (hq : q.val = 0) : encodeBytes wb q = allOffFrame n := by
  have hscaled : wb.map (scale · q) = (List.replicate (3 * n) 0#8).map (scale · q) := by
    simp [scale_of_val_zero, hq, hlen]
  rw [encodeBytes_eq_flatMap_expand, hscaled, ← encodeBytes_eq_flatMap_expand, encodeBytes_allOff]

/-- PREP leaves in group `k` of TB the expansion of the scaled channel `k`. -/
theorem exec_prep_readTb {s t : State} (h : exec .prep s = .next t) (k : Nat) {j : Nat} (hj : j < 4) :
    t.readTb (4 * k + j) = (s.readWb k).bind fun v => (expand (scale v s.q))[j]? := by
  cases h
  exact encodeBytes_group s.wb s.q k j hj

/-- A frame that begins with an expansion decodes to the value first (30_encoding.md R55). -/
theorem decodeFrame_expand_append (v : Byte) (rest : List Byte) :
    decodeFrame (expand v ++ rest) = v :: decodeFrame rest := by
  rw [expand_eq_groupOf]
  exact congrArg (· :: decodeFrame rest) (decodeGroup_groupOf v)

theorem decodeFrame_encodeBytes (wb : List Byte) (q : Intensity) :
    decodeFrame (encodeBytes wb q) = wb.map (scale · q) := by
  induction wb with
  | nil => rfl
  | cons v wb ih => rw [encodeBytes_cons, decodeFrame_expand_append, ih, List.map_cons]

end Sys2Proof.Machine
end

section
/-! The statements on the encoder (41_encoder.md). -/

open Sys2Proof Sys2Proof.Machine

/-- Settles O7: a permutation of the channels visits every one of them, and each visit writes its own
group. -/
theorem encodePassInAnyOrder : Obligations.EncodePassInAnyOrder := by
  intro s order hwf hperm
  obtain ⟨hwb, htb, -⟩ := (Memory.wf_iff s).mp hwf
  refine encodeLoop_eq_encodeBytes (by omega) fun k hk => hperm.mem_iff.mpr ?_
  rwa [List.mem_range, ← hwb]

/-- Settles O6: the loop in index order is one of the orders, and the pass is a write of TB alone. -/
theorem encodePassIsTheLoop : Obligations.EncodePassIsTheLoop := by
  refine fun s hwf => ⟨(encodePassInAnyOrder s _ hwf (List.Perm.refl _)).symm, encodePass_frame s, ?_⟩
  intro t hwb hq
  rw [encodePass_tb, encodePass_tb, hwb, hq]

/-- Settles O8: PREP is the encode pass followed by a response; its bytes are those of the groups of the
pass, and it leaves the WB and Q that a second pass reads. -/
theorem prepEncodesWithoutSending : Obligations.PrepEncodesWithoutSending := by
  refine ⟨rfl, rfl, fun s hwf => ?_⟩
  obtain ⟨hwb, -, -⟩ := (Memory.wf_iff s).mp hwf
  obtain ⟨t, ht⟩ : ∃ t, exec .prep s = .next t := ⟨_, rfl⟩
  have hbyte (k j : Nat) (v : Byte) (hj : j < 4) (hv : s.readWb k = some v) :
      t.readTb (4 * k + j) = (expand (scale v s.q))[j]? := by
    rw [exec_prep_readTb ht k hj, hv, Option.bind_some]
  have htb : t.tb = encodeBytes s.wb s.q := by cases ht; rfl
  refine ⟨t, ht, fun k j hk hj => ?channels, ?size, ?response, ?frame, fun hq => ?off,
    fun hq k j v hj hv => ?full, fun k j hj hv => ?zero, ?again⟩
  case channels =>
    have hv : s.readWb k = some s.wb[k] := List.getElem?_eq_getElem (by omega)
    exact ⟨_, hv, hbyte k j _ hj hv⟩
  case size => rw [htb, encodeBytes_length]; omega
  case response => cases ht; exact responds_of_rsplog (value := 0) rfl
  case frame => cases ht; exact (encodePass_frame s).trans (respond_frame _ _ _)
  case off => exact htb.trans (encodeBytes_zeroIntensity hwb hq)
  case full => rw [hbyte k j v hj hv, scale_of_val_full v hq]
  case zero =>
    rw [hbyte k j 0 hj hv, expand_scale_zero]
    exact List.getElem?_replicate_of_lt hj
  case again => cases ht; exact ⟨_, rfl, rfl⟩

/-- Settles O9: each group decodes to the scaled channel it was expanded from, and full intensity scales
by one. -/
theorem frameDecodesToScaledChannels : Obligations.FrameDecodesToScaledChannels := by
  intro s t h
  have hdecode : decodeFrame t.tb = s.wb.map (scale · s.q) := by
    cases h
    exact decodeFrame_encodeBytes s.wb s.q
  refine ⟨hdecode, fun hq => ?_⟩
  rw [hdecode, List.map_congr_left fun v _ => scale_of_val_full v hq, List.map_id']

/-- Settles O3: the masks keep each of the four results below 256, so no narrowing changes it. -/
theorem expandIsTheFourFormulas : Obligations.ExpandIsTheFourFormulas := by
  intro v
  simp only [expand, expand0, expand1, expand2, expand3, List.map_cons, List.map_nil,
    BitVec.toNat_ofNat, Nat.mod_eq_of_lt (masked_lt_256 _ _)]

end

section
/-! SUPPORT. The fill (42_workbuffer_fill.md): what its write step leaves in each LED, the two steps
together, and FILL as the one command they make. -/

namespace Sys2Proof.Machine

/-! ### Whole prefixes -/

/-- A list stored at the front stands there whole. -/
theorem take_storeAt_zero {α : Type} {xs ys : List α} (h : ys.length ≤ xs.length) :
    (storeAt xs 0 ys).take ys.length = ys := by
  refine List.ext_getElem?' fun k hk => ?_
  rw [List.length_take, storeAt_length, Nat.min_eq_left h, max_self] at hk
  rw [List.getElem?_take_of_lt hk, ← storeAt_inside xs 0 ys k hk (by omega), Nat.zero_add]

/-! ### The write step and the zero step, LED by LED (R90, R91, R93) -/

section
variable {n start : Nat} {data : List Triple} {wb : List Byte}

theorem fillCount_le_length (n start : Nat) (data : List Triple) :
    fillCount n start data ≤ data.length := Nat.min_le_left _ _

/-- Three bytes are stored for each triple that fits. -/
theorem flatMap_grbBytes_take_fillCount_length (n start : Nat) (data : List Triple) :
    ((data.take (fillCount n start data)).flatMap grbBytes).length = 3 * fillCount n start data := by
  rw [flatMap_grbBytes_length, List.length_take_of_le (fillCount_le_length n start data)]

/-- A triple whose LED is on the chain is among those written. -/
theorem lt_fillCount {t : Nat} {x : Triple} (hx : data[t]? = some x) (ht : start + t < n) :
    t < fillCount n start data := by
  obtain ⟨hdata, -⟩ := List.getElem?_eq_some_iff.mp hx
  exact lt_min hdata (by omega)

/-- LED `start + t` gets the bytes of triple `t`. -/
theorem fillWrite_led (hlen : wb.length = 3 * n) {t : Nat} {x : Triple} (hx : data[t]? = some x)
    (ht : start + t < n) {c : Nat} (hc : c < 3) :
    (fillWrite n start data wb)[3 * (start + t) + c]? = (grbBytes x)[c]? := by
  have hcount := lt_fillCount hx ht
  have hstored := storeAt_inside wb (3 * start) ((data.take (fillCount n start data)).flatMap grbBytes)
    (3 * t + c) (by rw [flatMap_grbBytes_take_fillCount_length]; omega) (by omega)
  rw [fillWrite, ledIndex, show 3 * (start + t) + c = 3 * start + (3 * t + c) by omega, hstored,
    flatMap_grbBytes_led _ _ _ hc, List.getElem?_take_of_lt hcount, hx, Option.bind_some]

/-- The write step leaves every byte outside the triples it writes. -/
theorem fillWrite_outside {k : Nat} (hk : k < 3 * start ∨ 3 * fillEnd n start data ≤ k) :
    (fillWrite n start data wb)[k]? = wb[k]? := by
  refine storeAt_outside _ _ _ _ (hk.imp_right fun h => ?_)
  rw [flatMap_grbBytes_take_fillCount_length, ledIndex, ← Nat.mul_add]
  exact h

/-! ### Both steps (R94, R95, R96) -/

/-- The zero step begins behind the triples written and leaves them. -/
theorem fillBuffer_led (hlen : wb.length = 3 * n) {t : Nat} {x : Triple} (hx : data[t]? = some x)
    (ht : start + t < n) {c : Nat} (hc : c < 3) :
    (fillBuffer n start data wb)[3 * (start + t) + c]? = (grbBytes x)[c]? := by
  have hcount := lt_fillCount hx ht
  rw [fillBuffer, zeroTail_before _ _ _ (by rw [fillEnd]; omega), fillWrite_led hlen hx ht hc]

theorem fillBuffer_after {k : Nat} (hk : 3 * fillEnd n start data ≤ k) (hwb : k < wb.length) :
    (fillBuffer n start data wb)[k]? = some 0 :=
  zeroTail_after _ _ _ hk (by rwa [fillWrite_length])

/-- The fill leaves the LEDs before `start`, whatever the size of the buffer. -/
theorem fillBuffer_before {k : Nat} (hk : k < 3 * start) :
    (fillBuffer n start data wb)[k]? = wb[k]? := by
  rw [fillBuffer, zeroTail_before _ _ _ (by rw [fillEnd]; omega), fillWrite_outside (.inl hk)]

/-- The fill from LED 0 leaves nothing of the earlier buffer. -/
theorem fillBuffer_zero (hlen : wb.length = 3 * n) :
    fillBuffer n 0 data wb =
      (data.take n).flatMap grbBytes ++ List.replicate (3 * (n - data.length)) 0 := by
  have hcount : fillCount n 0 data = min n data.length := Nat.min_comm _ _
  have htake : data.take (fillCount n 0 data) = data.take n := by
    rw [hcount, ← List.take_eq_take_min]
  have hsize : ledIndex (fillEnd n 0 data) = ((data.take n).flatMap grbBytes).length := by
    rw [← htake, flatMap_grbBytes_take_fillCount_length, fillEnd, Nat.zero_add, ledIndex]
  have hfits : ((data.take n).flatMap grbBytes).length = 3 * min n data.length := by
    rw [flatMap_grbBytes_length, List.length_take]
  rw [fillBuffer, zeroTail, fillWrite_length, hsize, fillWrite, htake, ledIndex, Nat.mul_zero,
    take_storeAt_zero (by omega), show wb.length - _ = 3 * (n - data.length) by omega]

end

/-! ### FILL -/

theorem setWb_frame (s : State) (wb : List Byte) : KeepsAllBut [.wb] s (s.setWb wb) :=
  keepsAllBut_of_fields (fun _ => rfl) (fun _ => rfl) (fun h => absurd (List.mem_singleton_self _) h)
    (fun _ => rfl) (fun _ => rfl) (fun _ => rfl) (fun _ => rfl) (fun _ => rfl) (fun _ => rfl)
    (fun _ => rfl) (fun _ => rfl)

section
variable {start : BitVec 24} {data : List Triple} {s t : State}

theorem exec_fill_wb (h : exec (.fill start data) s = .next t) :
    t.wb = fillBuffer s.n start.toNat data s.wb := by
  cases h
  rfl

/-- FILL answers OK with the returned index, which is not reduced where N fits 24 bits (R92, R94). -/
theorem exec_fill_responds (hn : s.n < 2 ^ 24) (h : exec (.fill start data) s = .next t) :
    Responds 0 (fillEnd s.n start.toNat data) s t := by
  have hvalue : (BitVec.ofNat 24 (fillEnd s.n start.toNat data)).toNat =
      fillEnd s.n start.toNat data := by
    rw [BitVec.toNat_ofNat, Nat.mod_eq_of_lt (fillEnd_lt start data hn)]
  rw [← hvalue]
  cases h
  exact responds_of_rsplog rfl

theorem exec_fill_frame (h : exec (.fill start data) s = .next t) :
    KeepsAllBut [.wb, .rsplog] s t := by
  cases h
  exact (setWb_frame s _).trans (respond_frame _ _ _)

end

end Sys2Proof.Machine
end

section
/-! The statements on the fill (42_workbuffer_fill.md). -/

open Sys2Proof Sys2Proof.Machine

/-- Settles O12: the write step stores the triples that fit one after the other from LED `start` on, and
the zero step cuts the buffer and pads it. -/
theorem fillStepsWriteWholeTriplesThenZero : Obligations.FillStepsWriteWholeTriplesThenZero := by
  refine ⟨fun n start data wb hlen => ⟨?count, ?size, fun t x hx ht => ?led, fun k hk => ?outside⟩,
    fun n ret wb hlen => ⟨fun k hret hk => ?zero, fun k hk => ?before, ?zeroSize⟩⟩
  case count => rw [Nat.zero_max, fillCount]
  case size => rw [fillWrite_length, hlen]
  case led =>
    exact ⟨fillWrite_led hlen hx ht (c := 0) (by decide), fillWrite_led hlen hx ht (c := 1) (by decide),
      fillWrite_led hlen hx ht (c := 2) (by decide)⟩
  case outside => exact fillWrite_outside hk
  case zero => exact zeroTail_after ret wb k hret (by rwa [hlen])
  case before => exact zeroTail_before ret wb k hk
  case zeroSize => rw [zeroTail_length, hlen]

/-- Settles O14: the write step begins at LED `start`, and the zero step not before it. -/
theorem fillLeavesLedsBeforeStart : Obligations.FillLeavesLedsBeforeStart := by
  intro start data s t h k hk
  rw [State.readWb, exec_fill_wb h, fillBuffer_before hk, State.readWb]

/-- Settles O13: FILL is a write of WB followed by a response; the bytes are those of the two steps, and
what lies past WB is absent before and after. -/
theorem fillWritesAndZeroes : Obligations.FillWritesAndZeroes := by
  intro start data s hwf
  obtain ⟨hlen, -, -⟩ := (Memory.wf_iff s).mp hwf
  obtain ⟨t, ht⟩ : ∃ t, exec (.fill start data) s = .next t := ⟨_, rfl⟩
  have hread (k : Nat) : t.readWb k = (fillBuffer s.n start.toNat data s.wb)[k]? := by
    rw [State.readWb, exec_fill_wb ht]
  refine ⟨t, ht, fun k x hx hk => ?led, fun k hret hk => ?zero, fun k hk => ?kept,
    fun hn => exec_fill_responds hn ht, exec_fill_frame ht⟩
  case led =>
    have hbyte (c : Nat) (hc : c < 3) :
        t.readWb (3 * (start.toNat + k) + c) = (grbBytes x)[c]? :=
      (hread _).trans (fillBuffer_led hlen hx hk hc)
    exact ⟨hbyte 0 (by decide), hbyte 1 (by decide), hbyte 2 (by decide)⟩
  case zero => rw [hread, fillBuffer_after hret (by rwa [hlen])]
  case kept =>
    obtain hbefore | hpast := hk
    · exact fillLeavesLedsBeforeStart start data s t ht k hbefore
    · rw [hread, State.readWb, List.getElem?_eq_none (by rwa [fillBuffer_length, hlen]),
        List.getElem?_eq_none (by rwa [hlen])]

/-- Settles O15: from LED 0 the write step stores at the front of WB, and the zero step keeps that front
alone. -/
theorem fillFromZeroIsTheDataAndZeroes : Obligations.FillFromZeroIsTheDataAndZeroes := by
  intro data s hwf
  obtain ⟨hlen, -, -⟩ := (Memory.wf_iff s).mp hwf
  exact ⟨_, rfl, fillBuffer_zero hlen⟩

end

section
/-! SUPPORT. The buffer map (43_buffer_map.md): what SETMAP leaves in each element it loads, and the copy
through the map channel by channel and LED by LED. -/

namespace Sys2Proof.Machine

/-! ### SETMAP (R100, R101) -/

/-- An offset word is the offset, zero-extended (30_encoding.md R62). -/
theorem offsetWord_eq_setWidth (o : Offset) : offsetWord o = o.setWidth 32 :=
  (BitVec.setWidth_eq_append (by decide)).symm

theorem setBm_frame (s : State) (bm : List (Option Offset)) : KeepsAllBut [.bm] s (s.setBm bm) :=
  keepsAllBut_of_fields (fun _ => rfl) (fun _ => rfl) (fun _ => rfl) (fun _ => rfl)
    (fun h => absurd (List.mem_singleton_self _) h) (fun _ => rfl) (fun _ => rfl) (fun _ => rfl)
    (fun _ => rfl) (fun _ => rfl) (fun _ => rfl)

/-- Inside the map, SETMAP loads element `m` from operand `m`, the channel offsets first. -/
theorem readBm_mapBuffer_loaded {s : State} {r g b : Offset} {offsets : List Offset}
    (hw : Memory.wf s = true) {m : Nat} {x : Offset} (hm : m < 3 + s.n)
    (hx : (r :: g :: b :: offsets)[m]? = some x) :
    (s.setBm (mapBuffer s.n r g b offsets s.bm)).readBm m = some x := by
  obtain ⟨-, -, hbm⟩ := (Memory.wf_iff s).mp hw
  have hload : (r :: g :: b :: offsets.take s.n).map some =
      ((r :: g :: b :: offsets).take (s.n + 3)).map some := by simp only [List.take_succ_cons]
  have hloaded : ((r :: g :: b :: offsets.take s.n).map some)[m]? = some (some x) := by
    rw [hload, List.getElem?_map, List.getElem?_take_of_lt (by omega), hx, Option.map_some]
  obtain ⟨hlt, -⟩ := List.getElem?_eq_some_iff.mp hloaded
  have hstored := storeAt_inside s.bm 0 _ m hlt (by omega)
  rw [Nat.zero_add, hloaded] at hstored
  rw [State.readBm, setBm_bm, mapBuffer, hstored, Option.getD_some]

/-! ### One channel and one LED of the copy (R103) -/

section
variable {s t : State} {i count : Nat}

/-- A channel is the byte of EXT at base plus channel offset, where the map has both. -/
theorem readChannel_eq_bind (s : State) (i c : Nat) :
    readChannel s i c = (s.readBm (3 + i)).bind fun base =>
      (s.readBm c).bind fun offset => s.readExt (base.toNat + offset.toNat) := by
  rw [readChannel, baseIndex]
  cases s.readBm (3 + i) with
  | none => rfl
  | some base => cases s.readBm c <;> rfl

theorem readChannel_of_readBm {c : Nat} {base offset : Offset} (hbase : s.readBm (3 + i) = some base)
    (hoffset : s.readBm c = some offset) :
    readChannel s i c = s.readExt (base.toNat + offset.toNat) := by
  rw [readChannel_eq_bind, hbase, hoffset, Option.bind_some, Option.bind_some]

/-- The precondition of COPYX gives every channel it reads a byte (R106, R107). -/
theorem readChannel_of_copyxContract (h : CopyxContract s) (hi : i < s.n) {c : Nat} (hc : c < 3) :
    ∃ v, readChannel s i c = some v := by
  obtain ⟨base, offset, hbase, hoffset, hlt⟩ := h i c hi hc
  exact ⟨_, (readChannel_of_readBm hbase hoffset).trans (List.getElem?_eq_getElem hlt)⟩

/-- A channel is the same in any external buffer that agrees at the index the map gives it, if it gives
one. -/
theorem readChannel_congr_ext {ext : List Byte} {c : Nat}
    (h : ∀ base offset, s.readBm (3 + i) = some base → s.readBm c = some offset →
      ext[base.toNat + offset.toNat]? = s.readExt (base.toNat + offset.toNat)) :
    readChannel { s with ext := ext } i c = readChannel s i c := by
  rw [readChannel_eq_bind, readChannel_eq_bind]
  exact Option.bind_congr fun base hbase => Option.bind_congr fun offset => h base offset hbase

/-- An LED is read where its three channels are. -/
theorem readLed_of_channels (h : ∀ c < 3, ∃ v, readChannel s i c = some v) :
    ∃ led, readLed s i = some led := by
  obtain ⟨r, hr⟩ := h 0 (by decide)
  obtain ⟨g, hg⟩ := h 1 (by decide)
  obtain ⟨b, hb⟩ := h 2 (by decide)
  exact ⟨grbBytes ⟨r, g, b⟩, by rw [readLed, hr, hg, hb]⟩

/-- Where an LED is read, its bytes are its three channels in transport order. -/
theorem triple_of_readLed {led : List Byte} (h : readLed s i = some led) :
    ∃ x : Triple, led = grbBytes x ∧ readChannel s i 0 = some x.r ∧ readChannel s i 1 = some x.g ∧
      readChannel s i 2 = some x.b := by
  rw [readLed] at h
  split at h
  · next r g b hr hg hb =>
    cases h
    exact ⟨⟨r, g, b⟩, rfl, hr, hg, hb⟩
  · cases h

/-- States that agree on the three channels agree on the LED. -/
theorem readLed_congr (h : ∀ c < 3, readChannel t i c = readChannel s i c) :
    readLed t i = readLed s i := by
  rw [readLed, h 0 (by decide), h 1 (by decide), h 2 (by decide), readLed]

/-! ### The LEDs from LED `i` on (R103, R104) -/

/-- The copy gives bytes where each of its LEDs is read. -/
theorem readLeds_of_readLed (h : ∀ j, i ≤ j → j < i + count → ∃ led, readLed s j = some led) :
    ∃ wb, readLeds s i count = some wb := by
  induction count generalizing i with
  | zero => exact ⟨[], rfl⟩
  | succ count ih =>
    obtain ⟨led, hled⟩ := h i le_rfl (by omega)
    obtain ⟨rest, hrest⟩ := ih (i := i + 1) fun j hij hj => h j (by omega) (by omega)
    exact ⟨led ++ rest, by rw [readLeds, hled, hrest]⟩

/-- LED `k` of the copy stands at index `3 * k`. -/
theorem readLeds_led {wb : List Byte} (h : readLeds s i count = some wb) {k : Nat} (hk : k < count) :
    ∃ led, readLed s (i + k) = some led ∧ ∀ c < 3, wb[3 * k + c]? = led[c]? := by
  induction count generalizing i wb k with
  | zero => exact absurd hk (Nat.not_lt_zero k)
  | succ count ih =>
    rw [readLeds] at h
    split at h
    · next led rest hled hrest =>
      cases h
      have hlen : led.length = 3 := by
        obtain ⟨x, rfl, -⟩ := triple_of_readLed hled
        exact grbBytes_length x
      cases k with
      | zero =>
        refine ⟨led, hled, fun c hc => ?_⟩
        rw [List.getElem?_append_left (by omega), Nat.mul_zero, Nat.zero_add]
      | succ k =>
        obtain ⟨led', hled', hbyte⟩ := ih hrest (k := k) (by omega)
        refine ⟨led', by rwa [show i + (k + 1) = i + 1 + k by omega], fun c hc => ?_⟩
        rw [List.getElem?_append_right (by omega),
          show 3 * (k + 1) + c - led.length = 3 * k + c by omega, hbyte c hc]
    · cases h

/-- States that agree on every LED of the copy agree on its bytes. -/
theorem readLeds_congr (h : ∀ j, i ≤ j → j < i + count → readLed t j = readLed s j) :
    readLeds t i count = readLeds s i count := by
  induction count generalizing i with
  | zero => rfl
  | succ count ih =>
    rw [readLeds, h i le_rfl (by omega), ih fun j hij hj => h j (by omega) (by omega), readLeds]

end

/-! ### COPYX -/

theorem exec_copyx_of_readLeds {s : State} {wb : List Byte} (h : readLeds s 0 s.n = some wb) :
    exec .copyx s = .next (respond statusOk 0 (s.setWb wb)) := by
  simp only [exec, execCopyx, h]

end Sys2Proof.Machine
end

section
/-! The statements on the buffer map (43_buffer_map.md). -/

open Sys2Proof Sys2Proof.Machine

/-- Settles O16: SETMAP is a store at the front of BM followed by a response; the store is cut to the
map's N base offsets, so it never runs past BM. -/
theorem setmapLoadsTheMap : Obligations.SetmapLoadsTheMap := by
  intro r g b offsets s hwf
  have hload {m : Nat} {x : Offset} (hm : m < 3 + s.n) (hx : (r :: g :: b :: offsets)[m]? = some x) :=
    readBm_mapBuffer_loaded hwf hm hx
  refine ⟨?encoding, _, rfl, hload (m := 0) (by omega) rfl, hload (m := 1) (by omega) rfl,
    hload (m := 2) (by omega) rfl, fun i x hi hx => ?bases, fun m hm => ?kept, ?size, ?response,
    ?frame⟩
  case encoding => simp [encode, offsetWord_eq_setWidth, headerWord, countWord]
  case bases => exact hload (by omega) (by rwa [Nat.add_comm 3 i])
  case kept => exact readBm_mapBuffer_kept r g b offsets (by rwa [Nat.min_comm])
  case size => exact mapBuffer_length ..
  case response => exact responds_of_rsplog (value := 0) rfl
  case frame => exact (setBm_frame s _).trans (respond_frame _ _ _)

/-- Settles O17: the precondition gives every channel a byte, so the copy has its three bytes for each
LED, and COPYX is a write of WB with them followed by a response. -/
theorem copyxFillsFromExternalBuffer : Obligations.CopyxFillsFromExternalBuffer := by
  refine ⟨rfl, rfl, fun s _ hcontract => ?_⟩
  obtain ⟨wb, hwb⟩ : ∃ wb, readLeds s 0 s.n = some wb :=
    readLeds_of_readLed fun j _ hj => readLed_of_channels fun c hc =>
      readChannel_of_copyxContract hcontract (by omega) hc
  refine ⟨_, exec_copyx_of_readLeds hwb, fun i base r g b hi hbase hr hg hb => ?_,
    readLeds_length hwb, responds_of_rsplog (value := 0) rfl,
    (setWb_frame s wb).trans (respond_frame _ _ _)⟩
  obtain ⟨led, hled, hbyte⟩ := readLeds_led hwb hi
  rw [Nat.zero_add] at hled
  obtain ⟨x, rfl, hred, hgreen, hblue⟩ := triple_of_readLed hled
  rw [← readChannel_of_readBm hbase hr, ← readChannel_of_readBm hbase hg,
    ← readChannel_of_readBm hbase hb, hred, hgreen, hblue]
  exact ⟨hbyte 0 (by decide), hbyte 1 (by decide), hbyte 2 (by decide)⟩

/-- Settles O19: a buffer that agrees at the mapped indices gives every channel the same byte, hence every
LED and the whole copy. -/
theorem copyxReadsOnlyMappedBytes : Obligations.CopyxReadsOnlyMappedBytes := by
  intro s t ext h hagree
  obtain ⟨wb, hwb, rfl⟩ := exec_copyx_next h
  have hsame : readLeds { s with ext := ext } 0 s.n = readLeds s 0 s.n :=
    readLeds_congr fun i _ hi => readLed_congr fun c hc =>
      readChannel_congr_ext fun base offset => hagree i c base offset (by omega) hc
  exact exec_copyx_of_readLeds (hsame.trans hwb)

end

section
/-! SUPPORT. The commands that transmit (44_orchestration.md): the frames of a transmission and of a
command's end, encoding and transmitting as one operation, and SENDB and SHOW as two uses of it. -/

namespace Sys2Proof.Machine

/-! ### Transmission and the end of a command (R110, R114) -/

theorem transmit_frame (s : State) : KeepsAllBut [.txlog, .draws] s (transmit s) :=
  keepsAllBut_of_fields (fun _ => rfl) (fun _ => rfl) (fun _ => rfl) (fun _ => rfl) (fun _ => rfl)
    (fun h => absurd (by decide) h) (fun _ => rfl) (fun _ => rfl) (fun h => absurd (by decide) h)
    (fun _ => rfl) (fun _ => rfl)

/-- Either end of a transmitting command writes one response and nothing else. -/
theorem conclude_frame (o : TransportOutcome) (s : State) : KeepsAllBut [.rsplog] s (conclude o s) := by
  cases o with
  | ok => exact respond_frame statusOk 0 s
  | fail => exact respond_frame CommandError.transportError.status 0 s

/-! ### Encode and transmit (R112, R113) -/

section
variable (s : State)

@[simp] theorem encodeAndTransmit_draws : (encodeAndTransmit s).draws = s.draws.tail := by
  simp [encodeAndTransmit]

theorem encodeAndTransmit_frame :
    KeepsAllBut [.tb, .txlog, .draws, .rsplog] s (encodeAndTransmit s) :=
  (encodePass_frame s).trans ((transmit_frame _).trans (conclude_frame _ _))

theorem encodeAndTransmit_responds :
    Responds (outcomeStatus (nextOutcome s)) 0 s (encodeAndTransmit s) :=
  responds_of_rsplog (value := 0) (encodeAndTransmit_rsplog s)

/-- The first listed answer is the outcome, and the others stay listed (00_scope.md R6). -/
theorem encodeAndTransmit_takes_listed {d : TransportOutcome} {rest : List TransportOutcome}
    (h : s.draws = d :: rest) : nextOutcome s = d ∧ (encodeAndTransmit s).draws = rest :=
  ⟨nextOutcome_of_draws h, by rw [encodeAndTransmit_draws, h, List.tail_cons]⟩

/-- What the transport answers is seen in the record and the response alone: the pass comes before the
answer, and neither end undoes anything (R114). -/
theorem encodeAndTransmit_keeps_of_answer (good bad : TransportOutcome) (rest : List TransportOutcome) :
    KeepsAllBut [.txlog, .rsplog] (encodeAndTransmit { s with draws := good :: rest })
      (encodeAndTransmit { s with draws := bad :: rest }) := by
  apply keepsAllBut_of_fields <;> simp [encodeAndTransmit]

end

/-! ### SENDB and SHOW -/

/-- SENDB and SHOW encode and transmit some work buffer, chosen before the transport is asked. -/
theorem exec_transmitting (s : State) {i : Instr} (hi : i = .sendb ∨ ∃ data, i = .showData data) :
    ∃ wb, ∀ draws, exec i { s with draws := draws } =
      .next (encodeAndTransmit { s.setWb wb with draws := draws }) := by
  obtain rfl | ⟨data, rfl⟩ := hi
  · exact ⟨s.wb, fun _ => rfl⟩
  · exact ⟨fillBuffer s.n 0 data s.wb, fun _ => rfl⟩

section
variable {data : List Triple} {s t : State}

/-- SHOW leaves the triples that fit and zeroes, and nothing of the earlier buffer (R113, R116). -/
theorem exec_show_wb (hwf : Memory.wf s = true) (h : exec (.showData data) s = .next t) :
    t.wb = (data.take s.n).flatMap grbBytes ++ List.replicate (3 * (s.n - data.length)) 0 := by
  obtain ⟨hlen, -, -⟩ := (Memory.wf_iff s).mp hwf
  cases h
  exact (encodeAndTransmit_wb _).trans (fillBuffer_zero hlen)

/-- SHOW encodes the work buffer it leaves at the Q it found. -/
theorem exec_show_tb (h : exec (.showData data) s = .next t) : t.tb = encodeBytes t.wb s.q := by
  rw [exec_encodes_tb h (.inr (.inr ⟨data, rfl⟩)), exec_keeps_q h nofun]

/-- SHOW hands over the frame it leaves in TB. -/
theorem exec_show_txlog (h : exec (.showData data) s = .next t) :
    t.txlog = s.txlog ++ [⟨t.tb, nextOutcome s⟩] := by
  cases h
  rw [encodeAndTransmit_txlog, encodeAndTransmit_tb]
  rfl

theorem exec_show_frame (h : exec (.showData data) s = .next t) :
    KeepsAllBut [.wb, .tb, .txlog, .draws, .rsplog] s t := by
  cases h
  exact (setWb_frame s _).trans (encodeAndTransmit_frame _)

end

/-- SETQ 256 and then SENDB send the raw work buffer, whatever intensity it was shown at: SENDB's pass is
PREP's, whose frame decodes to the work buffer at full intensity (R113, 41_encoder.md R87). -/
theorem exec_setq_sendb_raw (t : State) :
    ∃ u v, exec (.setq 256) t = .next u ∧ exec .sendb u = .next v ∧ decodeFrame v.tb = t.wb := by
  refine ⟨_, _, rfl, rfl, ?_⟩
  rw [encodeAndTransmit_tb]
  obtain ⟨-, hfull⟩ :=
    frameDecodesToScaledChannels (respond statusOk 0 (t.setQ (saturate 256))) _ rfl
  exact hfull rfl

end Sys2Proof.Machine
end

section
/-! The statements on the commands that transmit (44_orchestration.md). -/

open Sys2Proof Sys2Proof.Machine

/-- Settles O22: SENDB is the encode pass, one transmission and the end its outcome has. -/
theorem sendbEncodesAndTransmits : Obligations.SendbEncodesAndTransmits := fun s _ =>
  ⟨encodeAndTransmit s, nextOutcome s, rfl, encodeAndTransmit_tb s, encodeAndTransmit_txlog s,
    encodeAndTransmit_responds s, fun _ _ => encodeAndTransmit_takes_listed s,
    encodeAndTransmit_frame s⟩

/-- Settles O23: SHOW is the fill from LED 0 followed by what SENDB does; no triples leave a buffer of
zeroes, and intensity 0 scales every channel to zero. -/
theorem showFillsEncodesTransmits : Obligations.ShowFillsEncodesTransmits := by
  refine fun data s hwf => ⟨?encoding, ?_⟩
  case encoding => simp [encode, headerWord, countWord]
  obtain ⟨t, ht⟩ : ∃ t, exec (.showData data) s = .next t := ⟨_, rfl⟩
  have hwb := exec_show_wb hwf ht
  have htb := exec_show_tb ht
  refine ⟨t, nextOutcome s, ht, hwb, htb, exec_show_txlog ht, ?response, fun d rest hd => ?listed,
    exec_show_frame ht, fun hdata => ?empty, fun hq => ?off, exec_setq_sendb_raw t⟩
  case response => cases ht; exact encodeAndTransmit_responds (s.setWb _)
  case listed => cases ht; exact encodeAndTransmit_takes_listed (s.setWb (fillBuffer s.n 0 data s.wb)) hd
  case empty =>
    rw [htb, hwb, hdata]
    simpa using encodeBytes_allOff s.n s.q
  case off =>
    obtain ⟨hlen, -, -⟩ := (Memory.wf_iff t).mp (exec_keeps_memory_wf hwf ht)
    rw [exec_keeps_n ht] at hlen
    exact htb.trans (encodeBytes_zeroIntensity hlen hq)

/-- Settles O24: both runs encode and transmit the same work buffer, and only the record and the response
see the answer. -/
theorem failedSendIsNotRolledBack : Obligations.FailedSendIsNotRolledBack := by
  intro s rest i hi
  obtain ⟨wb, hexec⟩ := exec_transmitting s hi
  exact ⟨_, _, encodeBytes wb s.q, hexec _, hexec _, encodeAndTransmit_keeps_of_answer _ _ _ _,
    encodeAndTransmit_txlog _, encodeAndTransmit_txlog _, encodeAndTransmit_responds _,
    encodeAndTransmit_responds _⟩

/-- Settles O25: the fill leaves nothing of the earlier WB, TB is the encoding of what it leaves, and the
frame is TB. -/
theorem showIsIndependentOfThePast : Obligations.ShowIsIndependentOfThePast := by
  intro data s s' t t' hwf hwf' hn hq ht ht'
  have hwb : t.wb = t'.wb := by rw [exec_show_wb hwf ht, exec_show_wb hwf' ht', hn]
  have htb : t.tb = t'.tb := by rw [exec_show_tb ht, exec_show_tb ht', hwb, hq]
  refine ⟨hwb, htb, ?_⟩
  rw [exec_show_txlog ht, exec_show_txlog ht', List.getLast?_concat, List.getLast?_concat]
  exact congrArg some htb

/-- Settles O20: the transmission appends one entry with the whole of TB, whose size is that of the chain,
and a failed one ends in the error. -/
theorem transmitHandsOverTheFrame : Obligations.TransmitHandsOverTheFrame := by
  intro s hwf
  obtain ⟨-, htb, -⟩ := (Memory.wf_iff s).mp hwf
  refine ⟨nextOutcome s, transmit_txlog s, by omega, transmit_frame s, fun hfail => ?_⟩
  rw [hfail, conclude]

end

section
/-! SUPPORT. What stops the model (60_exceptions.md): when COPYX gives bytes, when an instruction is a
fault, and the construction that is refused. -/

namespace Sys2Proof.Machine

/-! ### COPYX and its precondition (R125) -/

section
variable {s : State}

/-- A channel that gives a byte has both map entries, and its index is inside EXT (43_buffer_map.md R106,
R107). -/
theorem readBm_of_readChannel {i c : Nat} {v : Byte} (h : readChannel s i c = some v) :
    ∃ base offset, s.readBm (3 + i) = some base ∧ s.readBm c = some offset ∧
      base.toNat + offset.toNat < s.ext.length := by
  rw [readChannel_eq_bind] at h
  obtain ⟨base, hbase, h⟩ := Option.bind_eq_some_iff.mp h
  obtain ⟨offset, hoffset, hread⟩ := Option.bind_eq_some_iff.mp h
  obtain ⟨hlt, -⟩ := List.getElem?_eq_some_iff.mp hread
  exact ⟨base, offset, hbase, hoffset, hlt⟩

/-- An LED that is read has a byte for each of its channels. -/
theorem channels_of_readLed {i : Nat} {led : List Byte} (h : readLed s i = some led) :
    ∀ c < 3, ∃ v, readChannel s i c = some v := by
  obtain ⟨x, -, hr, hg, hb⟩ := triple_of_readLed h
  intro c hc
  match c, hc with
  | 0, _ => exact ⟨x.r, hr⟩
  | 1, _ => exact ⟨x.g, hg⟩
  | 2, _ => exact ⟨x.b, hb⟩

/-- The copy gives bytes exactly where its precondition holds. -/
theorem readLeds_eq_some_iff_copyxContract :
    (∃ wb, readLeds s 0 s.n = some wb) ↔ CopyxContract s := by
  constructor
  · rintro ⟨wb, hwb⟩ i c hi hc
    obtain ⟨led, hled, -⟩ := readLeds_led hwb hi
    rw [Nat.zero_add] at hled
    obtain ⟨v, hv⟩ := channels_of_readLed hled c hc
    exact readBm_of_readChannel hv
  · intro h
    exact readLeds_of_readLed fun i _ hi => readLed_of_channels fun c hc =>
      readChannel_of_copyxContract h (by omega) hc

/-- COPYX is a fault exactly where the copy gives no bytes, and the fault is ExternalBounds. -/
theorem exec_copyx_fault_iff {f : Fault} :
    exec .copyx s = .fault f ↔ f = .externalBounds ∧ readLeds s 0 s.n = none := by
  cases hread : readLeds s 0 s.n with
  | some wb => simp [exec_copyx_of_readLeds hread]
  | none => cases f; simp [exec, execCopyx, hread]

end

/-! ### Every instruction (R120) -/

/-- Only COPYX has a fault. -/
theorem eq_copyx_of_exec_fault {i : Instr} {s : State} {f : Fault} (h : exec i s = .fault f) :
    i = .copyx := by
  cases i with
  | copyx => rfl
  | _ => cases h

/-! ### Construction (R121) -/

/-- With no LEDs the reset sequence ends at its first check. -/
theorem construct_of_nonpos {ledCount : Int} (h : ledCount ≤ 0) (q0 : Intensity)
    (draw : TransportOutcome) :
    construct ledCount q0 draw = ⟨0, [], .error .constructionError⟩ :=
  if_pos h

end Sys2Proof.Machine
end

section
/-! The statements on the exceptions (60_exceptions.md). -/

open Sys2Proof Sys2Proof.Machine

/-- Settles O18: COPYX is the fault where the copy gives no bytes, and it gives bytes exactly under the
precondition. -/
theorem copyxFaultsOutsideItsContract : Obligations.CopyxFaultsOutsideItsContract := by
  intro s
  rw [exec_copyx_fault_iff, ← readLeds_eq_some_iff_copyxContract, ← Option.isSome_iff_exists,
    Option.not_isSome_iff_eq_none]
  exact and_iff_right rfl

/-- Settles O40: of the instructions only COPYX has a fault, its one fault is ExternalBounds, and none is
refused. -/
theorem onlyCopyxStops : Obligations.OnlyCopyxStops := by
  refine fun i s => ⟨fun f h => ?_, exec_ne_refused i s⟩
  obtain rfl := eq_copyx_of_exec_fault h
  obtain ⟨hf, -⟩ := exec_copyx_fault_iff.mp h
  exact ⟨rfl, hf⟩

/-- Settles O47: a construction with no LEDs ends at the check of N, before the transport is touched. -/
theorem constructionRefusesNoLeds : Obligations.ConstructionRefusesNoLeds := by
  intro ledCount q0 draw h
  rw [construct_of_nonpos h]
  exact ⟨rfl, rfl, rfl⟩

end

section
/-! SUPPORT. Reset and runs (70_reset_and_hazards.md): what a construction with at least one LED does, the
invariant of the state it leaves and of every state reached from there, and the steps that have no effect. -/

namespace Sys2Proof.Machine

/-! ### Construction with at least one LED (R141, R143) -/

/-- The reset sequence leaves the state after reset, but for the transport's answer in its record. -/
theorem transmit_encodePass_allocated (n : Nat) (q0 : Intensity) (draw : TransportOutcome) :
    transmit (encodePass (allocated n q0 draw)) =
      { State.afterReset n q0 with txlog := [⟨allOffFrame n, draw⟩] } := by
  have htb : (encodePass (allocated n q0 draw)).tb = allOffFrame n := encodeBytes_allOff n q0
  have hanswer : nextOutcome (encodePass (allocated n q0 draw)) = draw := nextOutcome_of_draws rfl
  simp only [transmit, htb, hanswer]
  rfl

/-- A construction whose all-off frame is taken configures the transport once and leaves the state after
reset. -/
theorem construct_of_draw_ok {ledCount : Int} (h : 0 < ledCount) (q0 : Intensity) :
    construct ledCount q0 .ok =
      ⟨1, [⟨allOffFrame ledCount.toNat, .ok⟩], .ok (State.afterReset ledCount.toNat q0)⟩ := by
  simp only [construct, if_neg h.not_ge, transmit_encodePass_allocated]
  rfl

/-- A construction whose all-off frame fails has configured and sent as any other, and leaves no block. -/
theorem construct_of_draw_fail {ledCount : Int} (h : 0 < ledCount) (q0 : Intensity) :
    construct ledCount q0 .fail =
      ⟨1, [⟨allOffFrame ledCount.toNat, .fail⟩], .error .transportError⟩ := by
  simp only [construct, if_neg h.not_ge, transmit_encodePass_allocated]
  rfl

/-- A construction whose all-off frame is taken gives a block only for at least one LED, and the block is the
state after reset. -/
theorem eq_afterReset_of_construct {ledCount : Int} {q0 : Intensity} {s : State}
    (h : (construct ledCount q0 .ok).result = .ok s) :
    0 < ledCount ∧ s = State.afterReset ledCount.toNat q0 := by
  by_cases hpos : 0 < ledCount
  · rw [construct_of_draw_ok hpos] at h
    cases h
    exact ⟨hpos, rfl⟩
  · rw [construct_of_nonpos (by omega)] at h
    cases h

/-! ### The state after reset (10_state.md R25 to R29) -/

/-- No SETMAP has written an element of the map (R28). -/
@[simp] theorem readBm_afterReset (n : Nat) (q0 : Intensity) (m : Nat) :
    (State.afterReset n q0).readBm m = none := by
  simp only [State.readBm, State.afterReset, List.getElem?_replicate]
  split <;> rfl

theorem allOffFrame_codeWords (n : Nat) : ∀ b ∈ allOffFrame n, isCodeWord b = true := by
  intro b hb
  rw [List.eq_of_mem_replicate hb]
  rfl

/-- The all-off frame is a frame of its chain (30_encoding.md R53, R57). -/
theorem legalFrame_allOffFrame (n : Nat) : LegalFrame n (allOffFrame n) :=
  ⟨List.length_replicate, allOffFrame_codeWords n⟩

/-- The state after reset meets the invariant on every chain the port drives. -/
theorem afterReset_inv {n : Nat} (q0 : Intensity) (hn : 1 ≤ n ∧ n ≤ 2 ^ 24 - 1) :
    (State.afterReset n q0).Inv where
  ledCount := hn
  memory := (Memory.wf_iff _).mpr
    ⟨List.length_replicate, List.length_replicate, List.length_replicate⟩
  transmitBuffer := allOffFrame_codeWords n
  frames := List.forall_mem_singleton.mpr (legalFrame_allOffFrame n)
  firstFrame := rfl
  responses := nofun
  mapChannels := fun h => absurd (readBm_afterReset n q0 0) h
  mapOrder := fun m h => absurd (readBm_afterReset n q0 (m + 1)) h

/-! ### Runs (R159) -/

/-- The invariant does not speak of the script and of the transport's answers to come. -/
theorem withScript_keeps_inv {s : State} (h : s.Inv) (inputs : List HostInput)
    (draws : List TransportOutcome) : (s.withScript inputs draws).Inv := { h with }

/-- Every state of every run meets the invariant. -/
theorem reachable_inv {s : State} (h : Reachable s) : s.Inv := by
  induction h with
  | reset ledCount q0 s inputs draws port hs =>
    obtain ⟨hpos, rfl⟩ := eq_afterReset_of_construct hs
    exact withScript_keeps_inv (afterReset_inv q0 (by omega)) inputs draws
  | step s t _ hst ih => exact step_keeps_inv ih hst

/-! ### Steps without an instruction (60_exceptions.md R129, R135) -/

theorem step_idle {s : State} (hi : s.inbox = []) : step s = .next s := by
  rw [step, hi]

/-- A byte that is no code word is refused by the wire decoder (30_encoding.md R56). -/
theorem step_wireByte_refused {s : State} {b : Byte} {rest : List HostInput} {e : DecodeError}
    (hi : s.inbox = .wireByte b :: rest) (hd : decodeWireByte s.wire.pos b = .error e) :
    step s = .refused .notACodeWord := by
  simp only [step, hi, hd]

/-- The port does not drive a chain of 0 or of 2^24 and more LEDs (00_scope.md R9). -/
theorem portDrives_eq_false {n : Nat} (hn : n = 0 ∨ 2 ^ 24 ≤ n) : portDrives n = false := by
  rw [← Bool.not_eq_true, portDrives_iff]
  omega

end Sys2Proof.Machine
end

section
/-! The statements on reset and hazards (70_reset_and_hazards.md). -/

open Sys2Proof Sys2Proof.Machine

/-- Settles O45: a successful construction leaves the state after reset, which meets the invariant, and every
step of a run keeps it. -/
theorem reachableStatesMeetTheInvariant : Obligations.ReachableStatesMeetTheInvariant :=
  fun _ => reachable_inv

/-- Settles O46: the reset sequence evaluates to the state after reset, whose frame is the encoding of an
all-off work buffer and decodes to it. -/
theorem constructionLeavesTheResetState : Obligations.ConstructionLeavesTheResetState := by
  intro n q0 hn
  have hdecoded : decodeFrame (allOffFrame n) = List.replicate (3 * n) 0#8 := by
    rw [← encodeBytes_allOff n q0, decodeFrame_encodeBytes, List.map_replicate, scale_zero]
  rw [construct_of_draw_ok (Int.natCast_pos.mpr hn), Int.toNat_natCast]
  exact ⟨State.afterReset n q0, rfl, rfl, rfl, rfl, rfl, rfl, rfl, List.length_replicate,
    readBm_afterReset n q0, rfl, hdecoded, rfl⟩

/-- Settles O33: the first input decides which of the model's step equations applies, and the port's check
comes before the decoder of commands. -/
theorem stepRunsTheDecodedInstruction : Obligations.StepRunsTheDecodedInstruction := by
  refine fun s => ⟨step_idle, fun words ext rest i hi h1 hn hd => ?runs,
    fun words ext rest e hi h1 hn hd => ?illegal, fun words ext rest hi hn => ?beyond,
    fun b rest i => step_wireByte_decoded, fun b rest e => step_wireByte_refused⟩
  case runs => exact step_command hi ((portDrives_iff _).mpr ⟨h1, hn⟩) hd
  case illegal => exact step_illegal hi ((portDrives_iff _).mpr ⟨h1, hn⟩) hd
  case beyond => exact (step_refused_beyondPort_iff hi).mpr (portDrives_eq_false hn)

/-- Settles O44: the model's reset is the state after reset on a chain the port drives. -/
theorem resetMeetsTheInvariant : Obligations.ResetMeetsTheInvariant :=
  afterReset_inv Config.defaultIntensity (by decide)

/-- Settles O48: the failed answer is the only one the sequence takes, and it ends in the error. -/
theorem constructionFailsWithItsTransmission : Obligations.ConstructionFailsWithItsTransmission := by
  intro n q0 hn
  rw [construct_of_draw_fail (Int.natCast_pos.mpr hn), Int.toNat_natCast]
  exact ⟨rfl, rfl, rfl⟩

end
